-- ==== Sys2Proof/Config.lean ====
section
/-! DEFINITION. What an implementation of the DDS logic core fixes: the one parameter the spec leaves OPEN
(spec/00_scope.md R5), the largest width an accumulator or NCO can be constructed at. -/

namespace Sys2Proof

/-- The OPEN parameter of rule R5. A run is made under one value of it; `State.cfg` carries that value and no step
writes it, so a statement about every state is a statement about every capacity. -/
structure Config where
  /-- `N_MAX`: `none` is unbounded (the spec's default), `some m` is the capacity `m`. -/
  nMax : Option Nat
deriving DecidableEq, Repr

/-- The default that rule R5 gives: `N_MAX` unbounded. -/
def Config.default : Config := { nMax := none }

end Sys2Proof
end

