-- ==== Sys2Proof/Word.lean ====
section
/-! DEFINITION. The values the DDS logic core computes on (spec/00_scope.md R6, R7), the 16-bit command word and its
side operands (spec/30_encoding.md R70, R73). -/

namespace Sys2Proof

/-- A Bit (R6): `false` is 0, `true` is 1; there is no third value. -/
abbrev Bit := Bool

/-- A bit vector of run-time width (R7): entry `i` is bit `i`, so the head is the least significant bit. -/
abbrev Bits := List Bit

/-- A finite string of characters at the boundary, most significant digit first (R51, R73). -/
abbrev Digits := List Char

/-- The command word `w[15:0]` (R70). -/
abbrev Word := BitVec 16

/-- The side operands of an operation (R73): each is present or absent. -/
structure Side where
  /-- The addend vector of ACCN.STEP and ACC4.STEP, as text. -/
  vec : Option Digits
  /-- The width of ACCN.INIT and NCO.INIT. -/
  n : Option Nat
  /-- The clock frequency of NCO.INIT, in Hz. -/
  fmclk : Option Rat
  /-- The output frequency of NCO.SETFREQ, in Hz. -/
  fout : Option Rat
deriving DecidableEq, Repr

/-- No side operand at all. -/
def Side.none : Side := { vec := .none, n := .none, fmclk := .none, fout := .none }

/-- One entry of the program (R36): a command word with its side operands, not yet decoded. -/
structure Command where
  word : Word
  side : Side
deriving DecidableEq, Repr

end Sys2Proof
end

