-- ==== Sys2Proof/Syntax.lean ====
section
/-! DEFINITION. The operations of the DDS logic core: one constructor per row of the opcode map
(spec/30_encoding.md R72), with the operands of spec/30_encoding.md R78 in that rule's order. -/

namespace Sys2Proof

/-- An operation with its operands (R72, R78). -/
inductive Instr where
  /-- NOT (R101). -/
  | not (a : Bit)
  /-- AND (R102). -/
  | and (a b : Bit)
  /-- OR (R103). -/
  | or (a b : Bit)
  /-- NOR (R104). -/
  | nor (a b : Bit)
  /-- NAND (R105). -/
  | nand (a b : Bit)
  /-- XOR (R106). -/
  | xor (a b : Bit)
  /-- FA (R141). -/
  | fa (a b cin : Bit)
  /-- SR.INIT (R122). -/
  | srInit
  /-- SR.STEP (R123): `set` and `rst` are the rule's `s` and `r`. -/
  | srStep (set rst : Bit)
  /-- DFF.INIT (R126). -/
  | dffInit
  /-- DFF.STEP (R128). -/
  | dffStep (clk d : Bit)
  /-- ACC1.INIT (R143). -/
  | acc1Init
  /-- ACC1.STEP (R144). -/
  | acc1Step (y clk cin : Bit)
  /-- ACCN.INIT (R148). -/
  | accnInit (n : Nat)
  /-- ACCN.STEP (R149). -/
  | accnStep (clk cin : Bit) (vec : Digits)
  /-- ACC4.INIT (R152). -/
  | acc4Init
  /-- ACC4.STEP (R153). -/
  | acc4Step (clk cin : Bit) (vec : Digits)
  /-- NCO.INIT (R172). -/
  | ncoInit (n : Nat) (fmclk : Rat)
  /-- NCO.SETFREQ (R174). -/
  | ncoSetfreq (fout : Rat)
  /-- NCO.ADVANCE (R176). -/
  | ncoAdvance
deriving DecidableEq, Repr

end Sys2Proof
end

