-- ==== Sys2Proof/WellFormed.lean ====
section
/-! DEFINITION. When a command (a word with its side operands) is an operation of the DDS logic core, as
spec/30_encoding.md R71, R73 and R76 list the conditions. Decode.lean follows rule R75's own order of checks instead,
from the match and mask columns of R72; that the two agree is a statement of the certificate.
An `Instr` needs no check: every operand of every constructor is a value the spec gives that operand. -/

namespace Sys2Proof

/-- The opcode field `w[15:10]` (R71). -/
def Word.op (w : Word) : Nat := w.toNat / 1024

/-- The reserved field `w[9:4]` (R71). -/
def Word.rsv (w : Word) : Nat := w.toNat / 16 % 64

/-- The scalar operand field `w[3:0]` (R71). -/
def Word.sc (w : Word) : Nat := w.toNat % 16

/-- Which side operands are present, or which an operation takes. -/
structure SideSet where
  vec : Bool
  n : Bool
  fmclk : Bool
  fout : Bool
deriving DecidableEq, Repr

/-- The side operands a command carries (R73). -/
def Side.present (x : Side) : SideSet :=
  { vec := x.vec.isSome, n := x.n.isSome, fmclk := x.fmclk.isSome, fout := x.fout.isSome }

/-- The side operands an opcode takes (R73, the column "used by"). -/
def sidesTaken (op : Nat) : SideSet :=
  { vec := op == 15 || op == 17, n := op == 14 || op == 18, fmclk := op == 18, fout := op == 19 }

/-- How many of the low scalar bits an opcode uses (R72, the column "scalar bits"). -/
def scalarsUsed (op : Nat) : Nat :=
  if op == 1 then 1
  else if op == 7 || op == 13 then 3
  else if (2 ≤ op && op ≤ 6) || op == 9 || op == 11 || op == 15 || op == 17 then 2
  else 0

/-- The opcode is assigned: neither 0 nor 21 to 63 (R76). -/
def Word.opcodeAssigned (w : Word) : Bool := 1 ≤ w.op && w.op ≤ 20

/-- The reserved bits are 0 (R71, R76). -/
def Word.reservedClear (w : Word) : Bool := w.rsv == 0

/-- The scalar bits that the opcode does not use are 0 (R71, R76). -/
def Word.scalarsClear (w : Word) : Bool := w.sc < 2 ^ scalarsUsed w.op

/-- No side operand is present that is not in the set (R73, R76). -/
def SideSet.within (present taken : SideSet) : Bool :=
  (!present.vec || taken.vec) && (!present.n || taken.n)
    && (!present.fmclk || taken.fmclk) && (!present.fout || taken.fout)

/-- The command carries no side operand its operation does not take (R76). -/
def Command.sidesExpected (c : Command) : Bool := c.side.present.within (sidesTaken c.word.op)

/-- The command carries every side operand its operation needs (R73). -/
def Command.sidesComplete (c : Command) : Bool := (sidesTaken c.word.op).within c.side.present

/-- The command is no illegal encoding (R76). -/
def Command.legal (c : Command) : Bool :=
  c.word.opcodeAssigned && c.word.reservedClear && c.word.scalarsClear && c.sidesExpected

/-- The command is an operation with all its operands (R73, R76). -/
def Command.wellFormed (c : Command) : Bool := c.legal && c.sidesComplete

end Sys2Proof
end

