-- ==== Sys2Proof/Decode.lean ====
section
/-! DEFINITION. The decoder, as spec/30_encoding.md R75 writes it, from the match and mask columns of the opcode map
(R72); then the encoder, from that map's encoding column. -/

namespace Sys2Proof

/-- Why a command is no operation (R75). Fault codes 1 and 2 of spec/60_exceptions.md R200. -/
inductive DecodeError where
  | illegalOperation
  | missingOperand
deriving DecidableEq, Repr

/-- A row of the opcode map (R72): the opcode, the columns match and mask, and the side operands it takes. -/
structure Row where
  op : Nat
  pattern : Word
  mask : Word
  sides : SideSet
deriving DecidableEq, Repr

/-- The row takes no side operand. -/
def noSides : SideSet := { vec := false, n := false, fmclk := false, fout := false }

/-- The opcode map (R72), row by row. -/
def opcodeMap : List Row :=
  [ ⟨1, 0x0400, 0xFFFE, noSides⟩,                      -- NOT
    ⟨2, 0x0800, 0xFFFC, noSides⟩,                      -- AND
    ⟨3, 0x0C00, 0xFFFC, noSides⟩,                      -- OR
    ⟨4, 0x1000, 0xFFFC, noSides⟩,                      -- NOR
    ⟨5, 0x1400, 0xFFFC, noSides⟩,                      -- NAND
    ⟨6, 0x1800, 0xFFFC, noSides⟩,                      -- XOR
    ⟨7, 0x1C00, 0xFFF8, noSides⟩,                      -- FA
    ⟨8, 0x2000, 0xFFFF, noSides⟩,                      -- SR.INIT
    ⟨9, 0x2400, 0xFFFC, noSides⟩,                      -- SR.STEP
    ⟨10, 0x2800, 0xFFFF, noSides⟩,                     -- DFF.INIT
    ⟨11, 0x2C00, 0xFFFC, noSides⟩,                     -- DFF.STEP
    ⟨12, 0x3000, 0xFFFF, noSides⟩,                     -- ACC1.INIT
    ⟨13, 0x3400, 0xFFF8, noSides⟩,                     -- ACC1.STEP
    ⟨14, 0x3800, 0xFFFF, { noSides with n := true }⟩,  -- ACCN.INIT
    ⟨15, 0x3C00, 0xFFFC, { noSides with vec := true }⟩,  -- ACCN.STEP
    ⟨16, 0x4000, 0xFFFF, noSides⟩,                     -- ACC4.INIT
    ⟨17, 0x4400, 0xFFFC, { noSides with vec := true }⟩,  -- ACC4.STEP
    ⟨18, 0x4800, 0xFFFF, { noSides with n := true, fmclk := true }⟩,  -- NCO.INIT
    ⟨19, 0x4C00, 0xFFFF, { noSides with fout := true }⟩,  -- NCO.SETFREQ
    ⟨20, 0x5000, 0xFFFF, noSides⟩ ]                    -- NCO.ADVANCE

/-- The row with the given opcode; none for opcode 0 and for 21 to 63 (R75). -/
def rowOf (op : Nat) : Option Row := opcodeMap.find? fun r => r.op == op

/-- Scalar bit `w[k]` (R71). -/
def Word.scalar (w : Word) (k : Nat) : Bit := w.getLsbD k

/-- The operation of a word whose row is already selected, its scalars from the row's letters (R72) and its side
operands as they are. It answers none exactly where a side operand that the row takes is absent. -/
def buildInstr (op : Nat) (w : Word) (x : Side) : Option Instr :=
  match op with
  | 1 => some (.not (w.scalar 0))
  | 2 => some (.and (w.scalar 0) (w.scalar 1))
  | 3 => some (.or (w.scalar 0) (w.scalar 1))
  | 4 => some (.nor (w.scalar 0) (w.scalar 1))
  | 5 => some (.nand (w.scalar 0) (w.scalar 1))
  | 6 => some (.xor (w.scalar 0) (w.scalar 1))
  | 7 => some (.fa (w.scalar 0) (w.scalar 1) (w.scalar 2))
  | 8 => some .srInit
  | 9 => some (.srStep (w.scalar 0) (w.scalar 1))
  | 10 => some .dffInit
  | 11 => some (.dffStep (w.scalar 0) (w.scalar 1))
  | 12 => some .acc1Init
  | 13 => some (.acc1Step (w.scalar 0) (w.scalar 1) (w.scalar 2))
  | 14 => x.n.map .accnInit
  | 15 => x.vec.map (.accnStep (w.scalar 0) (w.scalar 1))
  | 16 => some .acc4Init
  | 17 => x.vec.map (.acc4Step (w.scalar 0) (w.scalar 1))
  | 18 => x.n.bind fun n => x.fmclk.map (.ncoInit n)
  | 19 => x.fout.map .ncoSetfreq
  | 20 => some .ncoAdvance
  | _ => none

/-- Decoding (R75): total, the first check that fails decides. -/
def decode (c : Command) : Except DecodeError Instr :=
  match rowOf c.word.op with
  | none => .error .illegalOperation
  | some row =>
    if c.word &&& row.mask ≠ row.pattern then .error .illegalOperation
    else if !c.side.present.within row.sides then .error .illegalOperation
    else
      match buildInstr row.op c.word c.side with
      | none => .error .missingOperand
      | some i => .ok i

/-! ## The encoder -/

/-- The word with an opcode in `w[15:10]`, zeros in `w[9:4]` and up to three scalars from bit 0 up (R71, R72). -/
def commandWord (op : Nat) (b0 b1 b2 : Bit) : Word :=
  BitVec.ofNat 16 (op * 1024 + b2.toNat * 4 + b1.toNat * 2 + b0.toNat)

/-- A command that carries no side operand. -/
def plainCommand (op : Nat) (b0 b1 b2 : Bit) : Command :=
  { word := commandWord op b0 b1 b2, side := Side.none }

/-- The command of an operation (R72, the columns encoding and side operands). -/
def encode : Instr → Command
  | .not a => plainCommand 1 a false false
  | .and a b => plainCommand 2 a b false
  | .or a b => plainCommand 3 a b false
  | .nor a b => plainCommand 4 a b false
  | .nand a b => plainCommand 5 a b false
  | .xor a b => plainCommand 6 a b false
  | .fa a b cin => plainCommand 7 a b cin
  | .srInit => plainCommand 8 false false false
  | .srStep set rst => plainCommand 9 set rst false
  | .dffInit => plainCommand 10 false false false
  | .dffStep clk d => plainCommand 11 clk d false
  | .acc1Init => plainCommand 12 false false false
  | .acc1Step y clk cin => plainCommand 13 y clk cin
  | .accnInit n => { word := commandWord 14 false false false, side := { Side.none with n := some n } }
  | .accnStep clk cin vec => { word := commandWord 15 clk cin false, side := { Side.none with vec := some vec } }
  | .acc4Init => plainCommand 16 false false false
  | .acc4Step clk cin vec => { word := commandWord 17 clk cin false, side := { Side.none with vec := some vec } }
  | .ncoInit n fmclk =>
    { word := commandWord 18 false false false, side := { Side.none with n := some n, fmclk := some fmclk } }
  | .ncoSetfreq fout => { word := commandWord 19 false false false, side := { Side.none with fout := some fout } }
  | .ncoAdvance => plainCommand 20 false false false

/-! ## The host's two entries -/

/-- The side operands an opcode takes, every one present and zero: the width 0, the empty string, the frequency 0.
The opcode table gives side operands no bits, and this is what the host's rule "operand words of zeros" comes to. -/
def zeroSide (op : Nat) : Side :=
  { vec := if (sidesTaken op).vec then some [] else none
    n := if (sidesTaken op).n then some 0 else none
    fmclk := if (sidesTaken op).fmclk then some 0 else none
    fout := if (sidesTaken op).fout then some 0 else none }

/-- The command whose word is the low `nbits` bits of `w`, with zero side operands. -/
def tableCommand (nbits w : Nat) : Command :=
  { word := BitVec.ofNat 16 (w % 2 ^ nbits), side := zeroSide (Word.op (BitVec.ofNat 16 (w % 2 ^ nbits))) }

/-- What the decoder reads from an opcode-table word; a command is one 16-bit word, so nothing longer is one (R70). -/
def decodeTableWord (nbits w : Nat) : Option Instr :=
  if nbits ≤ 16 then
    match decode (tableCommand nbits w) with
    | .ok i => some i
    | .error _ => none
  else none

end Sys2Proof
end

