-- ==== Sys2Proof/Machine/State.lean ====
section
/-! DEFINITION. The bench (spec/10_state.md): every stored bit, register and list the spec gives the hardware, the
reasons a step can stop, and the state right after bench reset (R40). Plain data throughout. -/

namespace Sys2Proof.Machine

/-- The mnemonics of the opcode map (R72), as an output record names them (R38). -/
inductive Mnemonic where
  | not | and | or | nor | nand | xor | fa
  | srInit | srStep | dffInit | dffStep | acc1Init | acc1Step
  | accnInit | accnStep | acc4Init | acc4Step
  | ncoInit | ncoSetfreq | ncoAdvance
deriving DecidableEq, Repr

/-- One output of an operation: a Bit, or a vector as MSB-first text (R80). -/
inductive OutVal where
  | bit (b : Bit)
  | text (t : Digits)
deriving DecidableEq, Repr

/-- An output record (R38, R80): the operation's mnemonic and its outputs, in the order rule R80 gives. -/
structure OutRecord where
  mnemonic : Mnemonic
  outputs : List OutVal
deriving DecidableEq, Repr

/-- The fault codes (spec/60_exceptions.md R200). -/
inductive FaultCode where
  /-- 1: no operation has this encoding. -/
  | illegalOperation
  /-- 2: a side operand the operation needs is absent. -/
  | missingOperand
  /-- 3: a step of an entity whose slot is UNCONSTRUCTED. -/
  | notConstructed
  /-- 4: any operation on a FAILED slot. -/
  | useAfterConstructionFailure
  /-- 5: a character of `vec` other than 0 and 1. -/
  | invalidDigit
  /-- 6: `vec` longer than the accumulator. -/
  | widthOverflow
  /-- 7: `fmclk` not positive, or `fout` negative. -/
  | badFrequency
deriving DecidableEq, Repr

/-- What the fault register holds once it is written (R37): the code and the `pc` of the faulting operation. -/
structure FaultRecord where
  code : FaultCode
  pc : Nat
deriving DecidableEq, Repr

/-- The SR latch (R23). -/
structure SrState where
  q : Bit
deriving DecidableEq, Repr

/-- A D flip-flop (R24): the stored bit, the previous clock level, the rising-edge flag of the last step. -/
structure DffState where
  q : Bit
  last : Bit
  edge : Bit
deriving DecidableEq, Repr

/-- A one-bit accumulator (R25): the flip-flop it owns, and the stored bit that mirrors the flip-flop's. -/
structure Acc1Cell where
  dff : DffState
  q : Bit
deriving DecidableEq, Repr

/-- An N-bit accumulator (R26): its width, and its cells with index 0 (the least significant bit) first. -/
structure AccN where
  n : Nat
  cells : List Acc1Cell
deriving DecidableEq, Repr

/-- A slot (R28). -/
inductive Slot (α : Type) where
  /-- No initialize has run yet: no data. -/
  | unconstructed
  /-- Constructed. -/
  | ready (x : α)
  /-- Construction failed: no data, and not to be used again. -/
  | failed
deriving DecidableEq, Repr

/-- The NCO (R30): width, clock frequency, tuning word, phase register and the accumulator it owns. -/
structure NcoState where
  n : Nat
  fmclk : Rat
  tw : Bits
  phase : Bits
  acc : AccN
deriving DecidableEq, Repr

/-- A flip-flop with every field 0. -/
def DffState.zero : DffState := { q := false, last := false, edge := false }

/-- A one-bit accumulator with every field 0. -/
def Acc1Cell.zero : Acc1Cell := { dff := DffState.zero, q := false }

/-- The accumulator of width `n` with every cell zero, as an initialize leaves it (R148, R152, R172). -/
def AccN.zero (n : Nat) : AccN := { n := n, cells := List.replicate n Acc1Cell.zero }

/-- The bench (R20), with the two parameters of a run beside it. -/
structure State where
  /-- The SR latch. -/
  sr : SrState
  /-- The stand-alone D flip-flop. -/
  dff : DffState
  /-- The stand-alone one-bit accumulator. -/
  acc1 : Acc1Cell
  /-- The N-bit accumulator. -/
  accn : Slot AccN
  /-- The fixed 4-bit accumulator, always ready (R29). -/
  acc4 : AccN
  /-- The numerically controlled oscillator. -/
  nco : Slot NcoState
  /-- The index of the next operation of the program (R36). -/
  pc : Nat
  /-- The fault register (R37). -/
  fault : Option FaultRecord
  /-- The output trace, oldest record first (R38). -/
  trace : List OutRecord
  /-- The program (R36): a parameter of the run (R50) that no step writes (R62). -/
  prog : List Command
  /-- The implementation's parameters (R5), which no step writes. -/
  cfg : Config
deriving DecidableEq, Repr

/-- Why the bench has no next step. -/
inductive Fault where
  /-- The fault register is written: the bench is halted for good and has no step (R206, R207). Raised by `step`
  alone; safe, since the spec gives a halted bench no step. -/
  | benchHalted
  /-- The program has no operation at `pc`, so the run has ended (R36, R215). Raised by `step` alone; safe, since
  the spec gives a bench with no remaining operation no step. -/
  | runEnded
deriving DecidableEq, Repr

/-- Why the model gives an operation no meaning. -/
inductive Refusal where
  /-- The operation has no meaning yet. Raised by an arm of `exec` only, and by none now; safe. -/
  | notModelled (mnemonic : String)
deriving DecidableEq, Repr

/-- The bench at reset (R40): every stored bit 0, `accn` and `nco` waiting for their initialize. The program is
empty and the configuration is the spec's default: both are parameters of a run (log entries 1 and 3). -/
def State.reset : State :=
  { sr := { q := false }
    dff := DffState.zero
    acc1 := Acc1Cell.zero
    accn := .unconstructed
    acc4 := AccN.zero 4
    nco := .unconstructed
    pc := 0
    fault := none
    trace := []
    prog := []
    cfg := Config.default }

end Sys2Proof.Machine
end

