-- ==== Sys2Proof/Machine/Operands.lean ====
section
/-! DEFINITION. Vectors, their unsigned value, their text, and the boundary conversion of a digit string to a vector
(spec/00_scope.md R7, R8; spec/20_memory.md R51 to R54). -/

namespace Sys2Proof.Machine

/-- The unsigned value `val(v)` (R7). -/
def val : Bits → Nat
  | [] => 0
  | b :: v => b.toNat + 2 * val v

/-- `vec_W(k)` (R8): the width-`w` vector of value `k`, for `k` below `2 ^ w`. -/
def vecOf : Nat → Nat → Bits
  | 0, _ => []
  | w + 1, k => (k % 2 == 1) :: vecOf w (k / 2)

/-- The all-zero vector `0^W` (R8). -/
def zeros (w : Nat) : Bits := List.replicate w false

/-- The all-ones vector `1^W` (R8). -/
def ones (w : Nat) : Bits := List.replicate w true

/-- The digit of a Bit (R51). -/
def digitOf (b : Bit) : Char := if b then '1' else '0'

/-- `text(v)`: the digits of a vector, most significant first (R51). -/
def text (v : Bits) : Digits := v.reverse.map digitOf

/-- The character is a binary digit (R52). -/
def isBinaryDigit (c : Char) : Bool := c == '0' || c == '1'

/-- The Bit of a binary digit (R51). -/
def bitOf (c : Char) : Bit := c == '1'

/-- `parse_W(t)` (R52, R53, R54): the digits are checked first, then the length; a narrower string is padded with
zeros on the left, which is at the high indices. -/
def parse (w : Nat) (t : Digits) : Except FaultCode Bits :=
  if !t.all isBinaryDigit then .error .invalidDigit
  else if w < t.length then .error .widthOverflow
  else .ok (t.reverse.map bitOf ++ zeros (w - t.length))

end Sys2Proof.Machine
end

