-- ==== Sys2Proof/Machine/Logic.lean ====
section
/-! DEFINITION. The combinational functions: the six gates (spec/40_gates.md R101 to R106) and the full adder
(spec/42_adder_accumulators.md R140). Pure and total. -/

namespace Sys2Proof.Machine

/-- `NOT(a)` (R101). -/
def notGate (a : Bit) : Bit := !a

/-- `AND(a, b)` (R102). -/
def andGate (a b : Bit) : Bit := a && b

/-- `OR(a, b)` (R103). -/
def orGate (a b : Bit) : Bit := a || b

/-- `NOR(a, b)` (R104). -/
def norGate (a b : Bit) : Bit := notGate (orGate a b)

/-- `NAND(a, b)` (R105). -/
def nandGate (a b : Bit) : Bit := notGate (andGate a b)

/-- `XOR(a, b)`, composed of four NAND evaluations (R106). -/
def xorGate (a b : Bit) : Bit :=
  let m := nandGate a b
  let p := nandGate a m
  let q := nandGate b m
  nandGate p q

/-- The sum output of the full adder (R140). -/
def sumBit (a b c : Bit) : Bit := xorGate (xorGate a b) c

/-- The carry output of the full adder (R140): the majority of the three inputs. -/
def carryBit (a b c : Bit) : Bit := orGate (orGate (andGate a b) (andGate b c)) (andGate a c)

/-- `FA(a, b, c)`, answering the sum and the carry (R140). -/
def fullAdder (a b c : Bit) : Bit × Bit := (sumBit a b c, carryBit a b c)

end Sys2Proof.Machine
end

