-- ==== Sys2Proof/Machine/Flags.lean ====
section
/-! DEFINITION. The flag-like values (spec/10_state.md R34) other than the adder's carry, which is `carryBit`: the
rising-edge flag, the clamp bit of the tuning word and the construction status. -/

namespace Sys2Proof.Machine

/-- The rising-edge flag (spec/41_storage.md R127): clock 1 now, and a stored previous level of 0. -/
def risingEdge (last clk : Bit) : Bit := clk && !last

/-- The clamp bit (spec/43_nco.md R171): the floored quotient does not fit in `n` bits. -/
def clampBit (n k : Nat) : Bit := decide (2 ^ n - 1 < k)

/-- The width exceeds the capacity `N_MAX` (spec/00_scope.md R5). -/
def exceedsCapacity (cfg : Config) (n : Nat) : Bool :=
  match cfg.nMax with
  | none => false
  | some m => decide (m < n)

/-- The status an initialize with a width outputs (spec/60_exceptions.md R203): 1 is CONSTRUCTION_FAILED. -/
def constructionStatus (cfg : Config) (n : Nat) : Bit := n == 0 || exceedsCapacity cfg n

end Sys2Proof.Machine
end

