-- ==== Sys2Proof/Machine/Ops.lean ====
section
/-! DEFINITION. The operations on the bench that every meaning is built from: writing one entity, completing an
operation, raising a fault (the bench's one exception entry; there is no return from it, spec/60_exceptions.md R207),
reaching a slot, and fetching the next command. -/

namespace Sys2Proof.Machine

/-- What a meaning answers. -/
abbrev Result := Host.Outcome State Fault Refusal

/-! ## Writing one entity -/

/-- Write the SR latch. -/
def State.setSr (s : State) (x : SrState) : State := { s with sr := x }

/-- Write the stand-alone flip-flop. -/
def State.setDff (s : State) (x : DffState) : State := { s with dff := x }

/-- Write the stand-alone one-bit accumulator. -/
def State.setAcc1 (s : State) (x : Acc1Cell) : State := { s with acc1 := x }

/-- Write the slot of the N-bit accumulator. -/
def State.setAccn (s : State) (x : Slot AccN) : State := { s with accn := x }

/-- Write the fixed 4-bit accumulator. -/
def State.setAcc4 (s : State) (x : AccN) : State := { s with acc4 := x }

/-- Write the slot of the NCO. -/
def State.setNco (s : State) (x : Slot NcoState) : State := { s with nco := x }

/-! ## How an operation ends -/

/-- The tail of an operation that completes, `out(...)` and `pc <- pc + 1` (R36, R38): one record at the end of the
trace, and the sequencer advanced by one. -/
def State.record (s : State) (m : Mnemonic) (outputs : List OutVal) : State :=
  { s with trace := s.trace ++ [{ mnemonic := m, outputs := outputs }], pc := s.pc + 1 }

/-- Complete an operation from the state that holds its writes. -/
def complete (m : Mnemonic) (outputs : List OutVal) (s : State) : Result := .next (s.record m outputs)

/-- Fault entry (R206), on the state: the fault register takes the code and the `pc`; nothing else changes. -/
def State.setFault (s : State) (code : FaultCode) : State :=
  { s with fault := some { code := code, pc := s.pc } }

/-- `raise Fault(code)` (R206). The bench is halted by it: `fetch` finds no command while the register is written. -/
def raiseFault (code : FaultCode) (s : State) : Result := .next (s.setFault code)

/-- The number of a fault code (R200). -/
def FaultCode.number : FaultCode → Nat
  | .illegalOperation => 1
  | .missingOperand => 2
  | .notConstructed => 3
  | .useAfterConstructionFailure => 4
  | .invalidDigit => 5
  | .widthOverflow => 6
  | .badFrequency => 7

/-- The fault of a command that decodes to no operation (R75). -/
def decodeFault : DecodeError → FaultCode
  | .illegalOperation => .illegalOperation
  | .missingOperand => .missingOperand

/-! ## Slots and vector operands -/

/-- Run a step on the data of a slot; on a slot that holds none, fault (R39, R201, R202). -/
def withReady {α : Type} (slot : Slot α) (s : State) (k : α → Result) : Result :=
  match slot with
  | .unconstructed => raiseFault .notConstructed s
  | .failed => raiseFault .useAfterConstructionFailure s
  | .ready x => k x

/-- Run an initialize of a slot, which only a FAILED slot turns away (R201, R202). -/
def unlessFailed {α : Type} (slot : Slot α) (s : State) (k : Result) : Result :=
  match slot with
  | .failed => raiseFault .useAfterConstructionFailure s
  | .unconstructed => k
  | .ready _ => k

/-- Run a step on a converted operand, or raise the fault its conversion found (R52, R53). -/
def withParsed (p : Except FaultCode Bits) (s : State) (k : Bits → Result) : Result :=
  match p with
  | .error code => raiseFault code s
  | .ok y => k y

/-! ## The sequencer -/

/-- What the sequencer finds (R36). -/
inductive Fetched where
  /-- The fault register is written. -/
  | halted
  /-- No operation is left. -/
  | ended
  /-- The next command. -/
  | command (c : Command)
deriving DecidableEq, Repr

/-- The sequencer's fetch (R36, R207): the command at index `pc`, unless the bench is halted or the program is
done. -/
def fetch (s : State) : Fetched :=
  match s.fault with
  | some _ => .halted
  | none =>
    match s.prog[s.pc]? with
    | none => .ended
    | some c => .command c

/-- A command that is no operation (opcode 0, R76): it fills program places that are never reached. -/
def fillerCommand : Command := { word := 0, side := Side.none }

/-- The program with a command at an index; an index past the end is reached through filler. -/
def placeCommand : Nat → Command → List Command → List Command
  | 0, c, [] => [c]
  | 0, c, _ :: rest => c :: rest
  | k + 1, c, [] => fillerCommand :: placeCommand k c []
  | k + 1, c, d :: rest => d :: placeCommand k c rest

/-- The bench about to run a command: the command stands at `pc`, and the bench is not halted (log entry 2). -/
def State.withCommand (s : State) (c : Command) : State :=
  { s with prog := placeCommand s.pc c s.prog, fault := none }

end Sys2Proof.Machine
end

