-- ==== Sys2Proof/Machine/Storage.lean ====
section
/-! DEFINITION. The storage cells (spec/41_storage.md): the SR latch and the D flip-flop. -/

namespace Sys2Proof.Machine

/-- The SR latch's next state (R120), in the rule's priority order: hold, reset, set. -/
def srNext (q set rst : Bit) : Bit :=
  if !set && !rst then q
  else if rst then false
  else true

/-- SR.INIT (R122). -/
def execSrInit (s : State) : Result := complete .srInit [] (s.setSr { q := false })

/-- SR.STEP (R123): the outputs are the stored bit after the update and its complement. -/
def execSrStep (set rst : Bit) (s : State) : Result :=
  let q := srNext s.sr.q set rst
  complete .srStep [.bit q, .bit (notGate q)] (s.setSr { q := q })

/-- The D flip-flop's step function (R127). -/
def dffNext (f : DffState) (clk d : Bit) : DffState :=
  let e := risingEdge f.last clk
  { q := if e then d else f.q, last := clk, edge := e }

/-- DFF.INIT (R126). -/
def execDffInit (s : State) : Result := complete .dffInit [] (s.setDff DffState.zero)

/-- DFF.STEP (R128): the output is the stored bit after this call. -/
def execDffStep (clk d : Bit) (s : State) : Result :=
  let f := dffNext s.dff clk d
  complete .dffStep [.bit f.q] (s.setDff f)

end Sys2Proof.Machine
end

