-- ==== Sys2Proof/Machine/Accumulators.lean ====
section
/-! DEFINITION. The full adder operation and the accumulators (spec/42_adder_accumulators.md). -/

namespace Sys2Proof.Machine

/-- FA (R141): the sum and the carry are outputs only. -/
def execFa (a b cin : Bit) (s : State) : Result :=
  let (sum, co) := fullAdder a b cin
  complete .fa [.bit sum, .bit co] s

/-! ## The one-bit accumulator -/

/-- The one-bit accumulator's step function (R142), answering the cell, the sum and the carry: the adder reads the
stored bit at the start of the call, the sum is the flip-flop's data, and the mirror is refreshed at the end. -/
def acc1Next (cell : Acc1Cell) (y clk cin : Bit) : Acc1Cell × Bit × Bit :=
  let (sum, co) := fullAdder y cell.q cin
  let f := dffNext cell.dff clk sum
  ({ dff := f, q := f.q }, sum, co)

/-- ACC1.INIT (R143). -/
def execAcc1Init (s : State) : Result := complete .acc1Init [] (s.setAcc1 Acc1Cell.zero)

/-- ACC1.STEP (R144). -/
def execAcc1Step (y clk cin : Bit) (s : State) : Result :=
  let (cell, sum, co) := acc1Next s.acc1 y clk cin
  complete .acc1Step [.bit sum, .bit co] (s.setAcc1 cell)

/-! ## The N-bit accumulator -/

/-- The register value `Q(acc)` (R26). -/
def AccN.q (acc : AccN) : Bits := acc.cells.map Acc1Cell.q

/-- The ripple-carry chain (R150) over the cells from index 0 up: every cell gets the same clock, index 0 the
external carry, and index `i` the carry of index `i - 1`. It answers the cells, the sum vector and the last carry. -/
def ripple (clk : Bit) : List Acc1Cell → Bits → Bit → List Acc1Cell × Bits × Bit
  | [], _, c => ([], [], c)
  | cell :: cells, y, c =>
    let (cell', sum, co) := acc1Next cell (y.headD false) clk c
    let (cells', sums, last) := ripple clk cells y.tail co
    (cell' :: cells', sum :: sums, last)

/-- The N-bit step function (R150), answering the accumulator, the sum vector and the carry-out. -/
def accNNext (acc : AccN) (y : Bits) (clk cin : Bit) : AccN × Bits × Bit :=
  let (cells, sum, co) := ripple clk acc.cells y cin
  ({ acc with cells := cells }, sum, co)

/-- ACCN.INIT (R148): a FAILED slot faults; a width that cannot be constructed makes the slot FAILED with status 1;
any other builds the accumulator, all zero, with status 0. -/
def execAccnInit (n : Nat) (s : State) : Result :=
  unlessFailed s.accn s
    (if constructionStatus s.cfg n then complete .accnInit [.bit true] (s.setAccn .failed)
     else complete .accnInit [.bit false] (s.setAccn (.ready (AccN.zero n))))

/-- ACCN.STEP (R149). -/
def execAccnStep (clk cin : Bit) (vec : Digits) (s : State) : Result :=
  withReady s.accn s fun acc =>
    withParsed (parse acc.n vec) s fun y =>
      let (acc', sum, co) := accNNext acc y clk cin
      complete .accnStep [.text (text sum), .bit co] (s.setAccn (.ready acc'))

/-- ACC4.INIT (R152). -/
def execAcc4Init (s : State) : Result := complete .acc4Init [] (s.setAcc4 (AccN.zero 4))

/-- ACC4.STEP (R153): the N-bit rule at width 4. -/
def execAcc4Step (clk cin : Bit) (vec : Digits) (s : State) : Result :=
  withParsed (parse 4 vec) s fun y =>
    let (acc', sum, co) := accNNext s.acc4 y clk cin
    complete .acc4Step [.text (text sum), .bit co] (s.setAcc4 acc')

end Sys2Proof.Machine
end

