-- ==== Sys2Proof/Machine/Gates.lean ====
section
/-! DEFINITION. The gate operations (spec/40_gates.md R100 to R106): each appends its function's value to the trace
and changes no stored state. -/

namespace Sys2Proof.Machine

/-- The common form of a gate operation (R100): `out(y); pc <- pc + 1`. -/
def outputBit (m : Mnemonic) (y : Bit) (s : State) : Result := complete m [.bit y] s

/-- NOT (R101). -/
def execNot (a : Bit) (s : State) : Result := outputBit .not (notGate a) s

/-- AND (R102). -/
def execAnd (a b : Bit) (s : State) : Result := outputBit .and (andGate a b) s

/-- OR (R103). -/
def execOr (a b : Bit) (s : State) : Result := outputBit .or (orGate a b) s

/-- NOR (R104). -/
def execNor (a b : Bit) (s : State) : Result := outputBit .nor (norGate a b) s

/-- NAND (R105). -/
def execNand (a b : Bit) (s : State) : Result := outputBit .nand (nandGate a b) s

/-- XOR (R106). -/
def execXor (a b : Bit) (s : State) : Result := outputBit .xor (xorGate a b) s

end Sys2Proof.Machine
end

