-- ==== Sys2Proof/Machine/Nco.lean ====
section
/-! DEFINITION. The numerically controlled oscillator (spec/43_nco.md). -/

namespace Sys2Proof.Machine

/-- The floored quotient of the tuning-word function (R171), in exact rational arithmetic. -/
def tuningQuotient (n : Nat) (fmclk fout : Rat) : Nat :=
  (((2 ^ n : Nat) : Rat) * fout / fmclk).floor.toNat

/-- The tuning-word function (R171), answering the tuning word and the clamp bit. -/
def tuningWord (n : Nat) (fmclk fout : Rat) : Bits × Bit :=
  let k := tuningQuotient n fmclk fout
  if clampBit n k then (ones n, true) else (vecOf n k, false)

/-- The NCO as NCO.INIT constructs it (R30, R172). -/
def NcoState.fresh (n : Nat) (fmclk : Rat) : NcoState :=
  { n := n, fmclk := fmclk, tw := zeros n, phase := zeros n, acc := AccN.zero n }

/-- NCO.INIT (R172): slot state, then the clock frequency, then the width. -/
def execNcoInit (n : Nat) (fmclk : Rat) (s : State) : Result :=
  unlessFailed s.nco s
    (if fmclk ≤ 0 then raiseFault .badFrequency s
     else if constructionStatus s.cfg n then complete .ncoInit [.bit true] (s.setNco .failed)
     else complete .ncoInit [.bit false] (s.setNco (.ready (NcoState.fresh n fmclk))))

/-- NCO.SETFREQ (R174): it writes the tuning word only. -/
def execNcoSetfreq (fout : Rat) (s : State) : Result :=
  withReady s.nco s fun x =>
    if fout < 0 then raiseFault .badFrequency s
    else
      let (tw, clamped) := tuningWord x.n x.fmclk fout
      complete .ncoSetfreq [.text (text tw), .bit clamped] (s.setNco (.ready { x with tw := tw }))

/-- One accumulation cycle of an NCO (R175, R176): a call with clock 1 and the tuning word, then a call with clock 0
and zero data, both with carry-in 0; the phase is the sum of the second call. -/
def ncoCycle (x : NcoState) : NcoState :=
  let (acc1, _, _) := accNNext x.acc x.tw true false
  let (acc2, sum, _) := accNNext acc1 (zeros x.n) false false
  { x with acc := acc2, phase := sum }

/-- NCO.ADVANCE (R176). -/
def execNcoAdvance (s : State) : Result :=
  withReady s.nco s fun x =>
    let x' := ncoCycle x
    complete .ncoAdvance [.text (text x'.phase)] (s.setNco (.ready x'))

end Sys2Proof.Machine
end

