-- ==== Sys2Proof/Machine/Dispatch.lean ====
section
/-! DEFINITION. The meaning of every operation: one arm per constructor of `Instr` (spec/30_encoding.md R72). -/

namespace Sys2Proof.Machine

def exec (i : Instr) (s : State) : Host.Outcome State Fault Refusal :=
  match i with
  | .not a => Sys2Proof.Machine.execNot a s
  | .and a b => Sys2Proof.Machine.execAnd a b s
  | .or a b => Sys2Proof.Machine.execOr a b s
  | .nor a b => Sys2Proof.Machine.execNor a b s
  | .nand a b => Sys2Proof.Machine.execNand a b s
  | .xor a b => Sys2Proof.Machine.execXor a b s
  | .fa a b cin => Sys2Proof.Machine.execFa a b cin s
  | .srInit => Sys2Proof.Machine.execSrInit s
  | .srStep set rst => Sys2Proof.Machine.execSrStep set rst s
  | .dffInit => Sys2Proof.Machine.execDffInit s
  | .dffStep clk d => Sys2Proof.Machine.execDffStep clk d s
  | .acc1Init => Sys2Proof.Machine.execAcc1Init s
  | .acc1Step y clk cin => Sys2Proof.Machine.execAcc1Step y clk cin s
  | .accnInit n => Sys2Proof.Machine.execAccnInit n s
  | .accnStep clk cin vec => Sys2Proof.Machine.execAccnStep clk cin vec s
  | .acc4Init => Sys2Proof.Machine.execAcc4Init s
  | .acc4Step clk cin vec => Sys2Proof.Machine.execAcc4Step clk cin vec s
  | .ncoInit n fmclk => Sys2Proof.Machine.execNcoInit n fmclk s
  | .ncoSetfreq fout => Sys2Proof.Machine.execNcoSetfreq fout s
  | .ncoAdvance => Sys2Proof.Machine.execNcoAdvance s

end Sys2Proof.Machine
end

