-- ==== Sys2Proof/Machine/Step.lean ====
section
/-! DEFINITION. One step of the bench: the sequencer fetches, the decoder decodes, the operation runs
(spec/10_state.md R36; spec/30_encoding.md R75; spec/60_exceptions.md R206, R207). -/

namespace Sys2Proof.Machine

/-- One step. A command that decodes to no operation faults the bench as any operation does; a halted bench and a
finished run have no step. -/
def step (s : State) : Host.Outcome State Fault Refusal :=
  match fetch s with
  | .halted => .fault .benchHalted
  | .ended => .fault .runEnded
  | .command c =>
    match decode c with
    | .error e => raiseFault (decodeFault e) s
    | .ok i => exec i s

/-- The state with an opcode-table word as its next command, its side operands zero (log entry 2). -/
def State.withFetchWord (s : State) (nbits w : Nat) : State := s.withCommand (tableCommand nbits w)

end Sys2Proof.Machine
end

