-- ==== Sys2Proof/Machine/Assembler.lean ====
section
/-! DEFINITION. The textual syntax of operations (spec/30_encoding.md R78), the pseudo-instructions (R79), and the
assembly of a line to the commands it stands for. -/

namespace Sys2Proof.Machine

/-! ## Pseudo-instructions -/

/-- ACCN.CYCLE (R79). -/
def accnCycle (t : Digits) : List Instr := [.accnStep true false t, .accnStep false false []]

/-- ACC4.CYCLE (R79). -/
def acc4Cycle (t : Digits) : List Instr := [.acc4Step true false t, .acc4Step false false []]

/-- DFF.CYCLE (R79). -/
def dffCycle (d : Bit) : List Instr := [.dffStep true d, .dffStep false d]

/-- NCO.START (R79). -/
def ncoStart (n : Nat) (fmclk fout : Rat) : List Instr := [.ncoInit n fmclk, .ncoSetfreq fout]

/-! ## Reading a line -/

/-- A mnemonic as the opcode map spells it (R72), character by character. -/
def Mnemonic.name : Mnemonic → List Char
  | .not => ['N', 'O', 'T']
  | .and => ['A', 'N', 'D']
  | .or => ['O', 'R']
  | .nor => ['N', 'O', 'R']
  | .nand => ['N', 'A', 'N', 'D']
  | .xor => ['X', 'O', 'R']
  | .fa => ['F', 'A']
  | .srInit => ['S', 'R', '.', 'I', 'N', 'I', 'T']
  | .srStep => ['S', 'R', '.', 'S', 'T', 'E', 'P']
  | .dffInit => ['D', 'F', 'F', '.', 'I', 'N', 'I', 'T']
  | .dffStep => ['D', 'F', 'F', '.', 'S', 'T', 'E', 'P']
  | .acc1Init => ['A', 'C', 'C', '1', '.', 'I', 'N', 'I', 'T']
  | .acc1Step => ['A', 'C', 'C', '1', '.', 'S', 'T', 'E', 'P']
  | .accnInit => ['A', 'C', 'C', 'N', '.', 'I', 'N', 'I', 'T']
  | .accnStep => ['A', 'C', 'C', 'N', '.', 'S', 'T', 'E', 'P']
  | .acc4Init => ['A', 'C', 'C', '4', '.', 'I', 'N', 'I', 'T']
  | .acc4Step => ['A', 'C', 'C', '4', '.', 'S', 'T', 'E', 'P']
  | .ncoInit => ['N', 'C', 'O', '.', 'I', 'N', 'I', 'T']
  | .ncoSetfreq => ['N', 'C', 'O', '.', 'S', 'E', 'T', 'F', 'R', 'E', 'Q']
  | .ncoAdvance => ['N', 'C', 'O', '.', 'A', 'D', 'V', 'A', 'N', 'C', 'E']

/-- Every mnemonic, in the order of the opcode map. -/
def Mnemonic.all : List Mnemonic :=
  [.not, .and, .or, .nor, .nand, .xor, .fa, .srInit, .srStep, .dffInit, .dffStep, .acc1Init, .acc1Step,
    .accnInit, .accnStep, .acc4Init, .acc4Step, .ncoInit, .ncoSetfreq, .ncoAdvance]

/-- Take the given characters off the front of a line. -/
def expectChars : List Char → List Char → Option (List Char)
  | [], t => some t
  | _ :: _, [] => none
  | p :: ps, c :: t => if p == c then expectChars ps t else none

/-- Take spaces, at least one, and then `name=` off the front of a line (R78). -/
def expectName (name : List Char) : List Char → Option (List Char)
  | ' ' :: t => expectChars (name ++ ['=']) (t.dropWhile (· == ' '))
  | _ => none

/-- A scalar operand: `name=0` or `name=1` (R78). -/
def bitArg (name : List Char) (t : List Char) : Option (Bit × List Char) :=
  match expectName name t with
  | some ('0' :: rest) => some (false, rest)
  | some ('1' :: rest) => some (true, rest)
  | _ => none

/-- The double quote. -/
def quoteChar : Char := Char.ofNat 34

/-- The operand `y`, a quoted string (R78): every character up to the closing quote. -/
def vecArg (t : List Char) : Option (Digits × List Char) :=
  match expectName ['y'] t with
  | some (c :: rest) =>
    if c == quoteChar then
      match rest.dropWhile (· != quoteChar) with
      | _ :: after => some (rest.takeWhile (· != quoteChar), after)
      | [] => none
    else none
  | _ => none

/-- Read decimal digits onto a value read so far. -/
def readDigits : Nat → List Char → Nat × List Char
  | k, [] => (k, [])
  | k, c :: t => if c.isDigit then readDigits (k * 10 + (c.toNat - 48)) t else (k, c :: t)

/-- A decimal natural number, at least one digit. -/
def readNat : List Char → Option (Nat × List Char)
  | [] => none
  | c :: t => if c.isDigit then some (readDigits 0 (c :: t)) else none

/-- An exact rational without a sign: a decimal (2.75), a fraction (11/4) or a whole number (R78). -/
def readUnsignedRat (t : List Char) : Option (Rat × List Char) :=
  match readNat t with
  | none => none
  | some (k, '.' :: t) =>
    match readNat t with
    | none => none
    | some (f, rest) => some ((k : Rat) + (f : Rat) / ((10 ^ (t.length - rest.length) : Nat) : Rat), rest)
  | some (k, '/' :: t) =>
    match readNat t with
    | none => none
    | some (d, rest) => if d == 0 then none else some ((k : Rat) / (d : Rat), rest)
  | some (k, rest) => some ((k : Rat), rest)

/-- An exact rational, with an optional minus sign. -/
def readRat : List Char → Option (Rat × List Char)
  | '-' :: t => (readUnsignedRat t).map fun r => (-r.1, r.2)
  | t => readUnsignedRat t

/-- A width operand: `n=` and a decimal natural number (R78). -/
def natArg (t : List Char) : Option (Nat × List Char) := (expectName ['n'] t).bind readNat

/-- A frequency operand (R78). -/
def ratArg (name : List Char) (t : List Char) : Option (Rat × List Char) := (expectName name t).bind readRat

/-- The end of a line: only spaces may be left. -/
def finish {α : Type} (x : α) (t : List Char) : Option α := if t.all (· == ' ') then some x else none

/-- Two scalar operands and the end of the line. -/
def twoBits (n1 n2 : List Char) (k : Bit → Bit → Instr) (t : List Char) : Option Instr :=
  (bitArg n1 t).bind fun a => (bitArg n2 a.2).bind fun b => finish (k a.1 b.1) b.2

/-- Three scalar operands and the end of the line. -/
def threeBits (n1 n2 n3 : List Char) (k : Bit → Bit → Bit → Instr) (t : List Char) : Option Instr :=
  (bitArg n1 t).bind fun a =>
    (bitArg n2 a.2).bind fun b => (bitArg n3 b.2).bind fun c => finish (k a.1 b.1 c.1) c.2

/-- The operands `clk`, `cin` and `y`, and the end of the line. -/
def clockedVec (k : Bit → Bit → Digits → Instr) (t : List Char) : Option Instr :=
  (bitArg ['c', 'l', 'k'] t).bind fun a =>
    (bitArg ['c', 'i', 'n'] a.2).bind fun b => (vecArg b.2).bind fun y => finish (k a.1 b.1 y.1) y.2

/-- The operands of an operation after its mnemonic, as rule R78 lists them. -/
def readOperands : Mnemonic → List Char → Option Instr
  | .not, t => (bitArg ['a'] t).bind fun a => finish (.not a.1) a.2
  | .and, t => twoBits ['a'] ['b'] .and t
  | .or, t => twoBits ['a'] ['b'] .or t
  | .nor, t => twoBits ['a'] ['b'] .nor t
  | .nand, t => twoBits ['a'] ['b'] .nand t
  | .xor, t => twoBits ['a'] ['b'] .xor t
  | .fa, t => threeBits ['a'] ['b'] ['c', 'i', 'n'] .fa t
  | .srInit, t => finish .srInit t
  | .srStep, t => twoBits ['s'] ['r'] .srStep t
  | .dffInit, t => finish .dffInit t
  | .dffStep, t => twoBits ['c', 'l', 'k'] ['d'] .dffStep t
  | .acc1Init, t => finish .acc1Init t
  | .acc1Step, t => threeBits ['y'] ['c', 'l', 'k'] ['c', 'i', 'n'] .acc1Step t
  | .accnInit, t => (natArg t).bind fun n => finish (.accnInit n.1) n.2
  | .accnStep, t => clockedVec .accnStep t
  | .acc4Init, t => finish .acc4Init t
  | .acc4Step, t => clockedVec .acc4Step t
  | .ncoInit, t => (natArg t).bind fun n => (ratArg ['f', 'm', 'c', 'l', 'k'] n.2).bind fun f => finish (.ncoInit n.1 f.1) f.2
  | .ncoSetfreq, t => (ratArg ['f', 'o', 'u', 't'] t).bind fun f => finish (.ncoSetfreq f.1) f.2
  | .ncoAdvance, t => finish .ncoAdvance t

/-- The operands of a pseudo-instruction after its name (R79). -/
def readPseudo (name : List Char) (t : List Char) : Option (List Instr) :=
  if name == ['A', 'C', 'C', 'N', '.', 'C', 'Y', 'C', 'L', 'E'] then (vecArg t).bind fun y => finish (accnCycle y.1) y.2
  else if name == ['A', 'C', 'C', '4', '.', 'C', 'Y', 'C', 'L', 'E'] then (vecArg t).bind fun y => finish (acc4Cycle y.1) y.2
  else if name == ['D', 'F', 'F', '.', 'C', 'Y', 'C', 'L', 'E'] then (bitArg ['d'] t).bind fun d => finish (dffCycle d.1) d.2
  else if name == ['N', 'C', 'O', '.', 'S', 'T', 'A', 'R', 'T'] then
    (natArg t).bind fun n =>
      (ratArg ['f', 'm', 'c', 'l', 'k'] n.2).bind fun f => (ratArg ['f', 'o', 'u', 't'] f.2).bind fun g => finish (ncoStart n.1 f.1 g.1) g.2
  else none

/-- The operations a line stands for: one for an operation (R78), two for a pseudo-instruction (R79). -/
def readLine (line : List Char) : Option (List Instr) :=
  let name := line.takeWhile (· != ' ')
  let t := line.dropWhile (· != ' ')
  match Mnemonic.all.find? fun m => m.name == name with
  | some m => (readOperands m t).map fun i => [i]
  | none => readPseudo name t

/-- The commands a line assembles to (R78, R79). -/
def assemble (line : List Char) : Option (List Command) := (readLine line).map fun is => is.map encode

end Sys2Proof.Machine
end

