-- ==== Sys2Proof/Safety.lean ====
section
/-! DEFINITION. The terms the statements use: which entity an operation acts on, how a run ends, the value of a digit
string, the lines of rules R78 and R79, and the invariant of the bench. -/

namespace Sys2Proof.Machine

/-- The mnemonic of an operation (R72). -/
def mnemonicOf : Instr → Mnemonic
  | .not _ => .not
  | .and _ _ => .and
  | .or _ _ => .or
  | .nor _ _ => .nor
  | .nand _ _ => .nand
  | .xor _ _ => .xor
  | .fa _ _ _ => .fa
  | .srInit => .srInit
  | .srStep _ _ => .srStep
  | .dffInit => .dffInit
  | .dffStep _ _ => .dffStep
  | .acc1Init => .acc1Init
  | .acc1Step _ _ _ => .acc1Step
  | .accnInit _ => .accnInit
  | .accnStep _ _ _ => .accnStep
  | .acc4Init => .acc4Init
  | .acc4Step _ _ _ => .acc4Step
  | .ncoInit _ _ => .ncoInit
  | .ncoSetfreq _ => .ncoSetfreq
  | .ncoAdvance => .ncoAdvance

/-- The stateful entities of the bench, and `pure` for the operations that act on none (R74). -/
inductive Entity where
  | pure | sr | dff | acc1 | accn | acc4 | nco
deriving DecidableEq, Repr

/-- The entity an operation acts on (R74). -/
def entityOf : Instr → Entity
  | .not _ => .pure
  | .and _ _ => .pure
  | .or _ _ => .pure
  | .nor _ _ => .pure
  | .nand _ _ => .pure
  | .xor _ _ => .pure
  | .fa _ _ _ => .pure
  | .srInit => .sr
  | .srStep _ _ => .sr
  | .dffInit => .dff
  | .dffStep _ _ => .dff
  | .acc1Init => .acc1
  | .acc1Step _ _ _ => .acc1
  | .accnInit _ => .accn
  | .accnStep _ _ _ => .accn
  | .acc4Init => .acc4
  | .acc4Step _ _ _ => .acc4
  | .ncoInit _ _ => .nco
  | .ncoSetfreq _ => .nco
  | .ncoAdvance => .nco

/-- A completed run (R36): no fault, and no operation left. -/
def State.CompletedRun (s : State) : Prop := s.fault = none ∧ s.pc = s.prog.length

/-- A faulted run (R36), which is never a completed one. -/
def State.FaultedRun (s : State) : Prop := s.fault ≠ none

/-- The unsigned value of a binary digit string, most significant digit first (R7, R51): digits on from a value read
so far. -/
def digitsValue : Nat → Digits → Nat
  | k, [] => k
  | k, c :: t => digitsValue (2 * k + (bitOf c).toNat) t

/-- The outputs of a record have the form rule R80 gives its mnemonic. -/
def outputsMatch : Mnemonic → List OutVal → Bool
  | .not, [.bit _] => true
  | .and, [.bit _] => true
  | .or, [.bit _] => true
  | .nor, [.bit _] => true
  | .nand, [.bit _] => true
  | .xor, [.bit _] => true
  | .fa, [.bit _, .bit _] => true
  | .srInit, [] => true
  | .srStep, [.bit _, .bit _] => true
  | .dffInit, [] => true
  | .dffStep, [.bit _] => true
  | .acc1Init, [] => true
  | .acc1Step, [.bit _, .bit _] => true
  | .accnInit, [.bit _] => true
  | .accnStep, [.text _, .bit _] => true
  | .acc4Init, [] => true
  | .acc4Step, [.text _, .bit _] => true
  | .ncoInit, [.bit _] => true
  | .ncoSetfreq, [.text _, .bit _] => true
  | .ncoAdvance, [.text _] => true
  | _, _ => false

/-- Operations one after the other, as the sequencer runs a program of them: a fault halts the bench, and no later
operation runs (R36, R59, R206). -/
def runAll : List Instr → State → Result
  | [], s => .next s
  | i :: is, s =>
    match exec i s with
    | .next t => if t.fault.isSome then .next t else runAll is t
    | .fault r => .fault r
    | .refused r => .refused r

/-! ## Lines of text -/

/-- A decimal natural number (R78): one digit or more, read in base ten. -/
structure NatText (t : List Char) (k : Nat) : Prop where
  nonempty : t ≠ []
  digits : ∀ c ∈ t, c.isDigit = true
  value : Nat.ofDigitChars 10 t 0 = k

/-- A frequency without a sign: a decimal or a fraction (R78), or a whole number (log entry 11), as in
the spec's own lines with fmclk=16. -/
inductive UnsignedRatText : List Char → Rat → Prop where
  | decimal {t f : List Char} {k m : Nat} (ht : NatText t k) (hf : NatText f m) :
      UnsignedRatText (t ++ ['.'] ++ f) (k + m / 10 ^ f.length)
  | fraction {t d : List Char} {k m : Nat} (ht : NatText t k) (hd : NatText d m) (hm : m ≠ 0) :
      UnsignedRatText (t ++ ['/'] ++ d) (k / m)
  | whole {t : List Char} {k : Nat} (ht : NatText t k) : UnsignedRatText t k

/-- A frequency (R78); the minus sign is that of the test vectors' line with fout=-1 (log entry 11). -/
inductive RatText : List Char → Rat → Prop where
  | unsigned {t : List Char} {r : Rat} (h : UnsignedRatText t r) : RatText t r
  | negative {t : List Char} {r : Rat} (h : UnsignedRatText t r) : RatText (['-'] ++ t) (-r)

/-- A string between double quotes (R78). -/
def quoted (t : Digits) : List Char := [quoteChar] ++ t ++ [quoteChar]

/-- An operand of a line (R78): one space, and then `name=value`. -/
def operand (name value : List Char) : List Char := [' '] ++ name ++ ['='] ++ value

/-- The lines of rule R78, with one space before each operand, and the operation each is the line of. A quoted string
may hold any character but the quote that ends it (log entry 11). -/
inductive OperationLine : List Char → Instr → Prop where
  | not (a : Bit) : OperationLine (['N', 'O', 'T'] ++ operand ['a'] [digitOf a]) (.not a)
  | and (a b : Bit) :
      OperationLine (['A', 'N', 'D'] ++ operand ['a'] [digitOf a] ++ operand ['b'] [digitOf b]) (.and a b)
  | or (a b : Bit) : OperationLine (['O', 'R'] ++ operand ['a'] [digitOf a] ++ operand ['b'] [digitOf b]) (.or a b)
  | nor (a b : Bit) :
      OperationLine (['N', 'O', 'R'] ++ operand ['a'] [digitOf a] ++ operand ['b'] [digitOf b]) (.nor a b)
  | nand (a b : Bit) :
      OperationLine (['N', 'A', 'N', 'D'] ++ operand ['a'] [digitOf a] ++ operand ['b'] [digitOf b]) (.nand a b)
  | xor (a b : Bit) :
      OperationLine (['X', 'O', 'R'] ++ operand ['a'] [digitOf a] ++ operand ['b'] [digitOf b]) (.xor a b)
  | fa (a b cin : Bit) :
      OperationLine (['F', 'A'] ++ operand ['a'] [digitOf a] ++ operand ['b'] [digitOf b]
        ++ operand ['c', 'i', 'n'] [digitOf cin])
        (.fa a b cin)
  | srInit : OperationLine ['S', 'R', '.', 'I', 'N', 'I', 'T'] .srInit
  | srStep (set rst : Bit) :
      OperationLine (['S', 'R', '.', 'S', 'T', 'E', 'P'] ++ operand ['s'] [digitOf set]
        ++ operand ['r'] [digitOf rst]) (.srStep set rst)
  | dffInit : OperationLine ['D', 'F', 'F', '.', 'I', 'N', 'I', 'T'] .dffInit
  | dffStep (clk d : Bit) :
      OperationLine (['D', 'F', 'F', '.', 'S', 'T', 'E', 'P'] ++ operand ['c', 'l', 'k'] [digitOf clk]
        ++ operand ['d'] [digitOf d]) (.dffStep clk d)
  | acc1Init : OperationLine ['A', 'C', 'C', '1', '.', 'I', 'N', 'I', 'T'] .acc1Init
  | acc1Step (y clk cin : Bit) :
      OperationLine (['A', 'C', 'C', '1', '.', 'S', 'T', 'E', 'P'] ++ operand ['y'] [digitOf y]
        ++ operand ['c', 'l', 'k'] [digitOf clk] ++ operand ['c', 'i', 'n'] [digitOf cin]) (.acc1Step y clk cin)
  | accnInit {w : List Char} {n : Nat} (hn : NatText w n) :
      OperationLine (['A', 'C', 'C', 'N', '.', 'I', 'N', 'I', 'T'] ++ operand ['n'] w) (.accnInit n)
  | accnStep (clk cin : Bit) {t : Digits} (ht : quoteChar ∉ t) :
      OperationLine (['A', 'C', 'C', 'N', '.', 'S', 'T', 'E', 'P'] ++ operand ['c', 'l', 'k'] [digitOf clk]
        ++ operand ['c', 'i', 'n'] [digitOf cin] ++ operand ['y'] (quoted t)) (.accnStep clk cin t)
  | acc4Init : OperationLine ['A', 'C', 'C', '4', '.', 'I', 'N', 'I', 'T'] .acc4Init
  | acc4Step (clk cin : Bit) {t : Digits} (ht : quoteChar ∉ t) :
      OperationLine (['A', 'C', 'C', '4', '.', 'S', 'T', 'E', 'P'] ++ operand ['c', 'l', 'k'] [digitOf clk]
        ++ operand ['c', 'i', 'n'] [digitOf cin] ++ operand ['y'] (quoted t)) (.acc4Step clk cin t)
  | ncoInit {w f : List Char} {n : Nat} {fmclk : Rat} (hn : NatText w n) (hf : RatText f fmclk) :
      OperationLine (['N', 'C', 'O', '.', 'I', 'N', 'I', 'T'] ++ operand ['n'] w
        ++ operand ['f', 'm', 'c', 'l', 'k'] f) (.ncoInit n fmclk)
  | ncoSetfreq {f : List Char} {fout : Rat} (hf : RatText f fout) :
      OperationLine (['N', 'C', 'O', '.', 'S', 'E', 'T', 'F', 'R', 'E', 'Q'] ++ operand ['f', 'o', 'u', 't'] f)
        (.ncoSetfreq fout)
  | ncoAdvance : OperationLine ['N', 'C', 'O', '.', 'A', 'D', 'V', 'A', 'N', 'C', 'E'] .ncoAdvance

/-- The lines of rule R79, in the same spelling, and the two operations each stands for. -/
inductive PseudoLine : List Char → List Instr → Prop where
  | accnCycle {t : Digits} (ht : quoteChar ∉ t) :
      PseudoLine (['A', 'C', 'C', 'N', '.', 'C', 'Y', 'C', 'L', 'E'] ++ operand ['y'] (quoted t))
        [.accnStep true false t, .accnStep false false []]
  | acc4Cycle {t : Digits} (ht : quoteChar ∉ t) :
      PseudoLine (['A', 'C', 'C', '4', '.', 'C', 'Y', 'C', 'L', 'E'] ++ operand ['y'] (quoted t))
        [.acc4Step true false t, .acc4Step false false []]
  | dffCycle (d : Bit) :
      PseudoLine (['D', 'F', 'F', '.', 'C', 'Y', 'C', 'L', 'E'] ++ operand ['d'] [digitOf d])
        [.dffStep true d, .dffStep false d]
  | ncoStart {w f g : List Char} {n : Nat} {fmclk fout : Rat}
      (hn : NatText w n) (hf : RatText f fmclk) (hg : RatText g fout) :
      PseudoLine (['N', 'C', 'O', '.', 'S', 'T', 'A', 'R', 'T'] ++ operand ['n'] w
        ++ operand ['f', 'm', 'c', 'l', 'k'] f ++ operand ['f', 'o', 'u', 't'] g)
        [.ncoInit n fmclk, .ncoSetfreq fout]

/-! ## The invariant of the bench -/

/-- The previous clock level that all cells of an accumulator share (R151). -/
def AccN.last (acc : AccN) : Bit := (acc.cells.headD Acc1Cell.zero).dff.last

/-- The rising-edge flag of a flip-flop is set only when its last clock level is 1 (R127). -/
def DffState.Wf (f : DffState) : Prop := f.edge = true → f.last = true

/-- The stored bit of a cell mirrors its flip-flop's (R25). -/
structure Acc1Cell.Wf (c : Acc1Cell) : Prop where
  mirror : c.q = c.dff.q
  edge : c.dff.Wf

/-- An accumulator has a positive width and as many cells (R26); every cell mirrors its flip-flop (R25) and shares
its previous clock level with the others (R151). -/
structure AccN.Wf (acc : AccN) : Prop where
  width : 1 ≤ acc.n
  cells : acc.cells.length = acc.n
  cell : ∀ c ∈ acc.cells, c.Wf
  lockstep : ∀ c ∈ acc.cells, c.dff.last = acc.last

/-- A ready NCO (R30, R31): everything has its width, the clock frequency is positive, the phase register equals
the accumulator's register value, and the accumulator has settled. -/
structure NcoState.Wf (x : NcoState) : Prop where
  clock : 0 < x.fmclk
  tw : x.tw.length = x.n
  phase : x.phase.length = x.n
  accWidth : x.acc.n = x.n
  acc : x.acc.Wf
  mirror : x.phase = x.acc.q
  settled : x.acc.last = false

/-- The invariant of the bench: every entity is well formed and within the capacity (R35), the sequencer is within
the program (R36), the fault register names the operation at `pc` (R36, R37), and the trace has one record for each
completed operation (R38). -/
structure State.Inv (s : State) : Prop where
  dff : s.dff.Wf
  acc1 : s.acc1.Wf
  acc4 : s.acc4.Wf
  acc4Width : s.acc4.n = 4
  accn : ∀ acc, s.accn = .ready acc → acc.Wf ∧ exceedsCapacity s.cfg acc.n = false
  nco : ∀ x, s.nco = .ready x → x.Wf ∧ exceedsCapacity s.cfg x.n = false
  pc : s.pc ≤ s.prog.length
  fault : ∀ f, s.fault = some f → f.pc = s.pc ∧ s.pc < s.prog.length
  trace : s.trace.length = s.pc

end Sys2Proof.Machine
end

