-- ==== Sys2Proof/Certificates/Slice0/Obligations.lean ====
section
/-! DEFINITION. The statements about the DDS logic core, for the provers. A next state is written out as the state
before with the fields that change, so every equation of that form is also the operation's frame. -/

open Sys2Proof Sys2Proof.Machine

/-! ## Encoding -/

/-- Words written out bit by bit from the opcode map (R72) and the rejected words of the test vectors decode as the
spec says; ACC1.STEP y=1 clk=1 cin=0 is R78's own example. -/
def Obligations.SampleWordsDecode : Prop :=
  decode ⟨0b0000010000000001, Side.none⟩ = .ok (.not true)
    ∧ decode ⟨0b0000110000000010, Side.none⟩ = .ok (.or false true)
    ∧ decode ⟨0b0001110000000110, Side.none⟩ = .ok (.fa false true true)
    ∧ decode ⟨0b0010010000000001, Side.none⟩ = .ok (.srStep true false)
    ∧ decode ⟨0b0010110000000010, Side.none⟩ = .ok (.dffStep false true)
    ∧ decode ⟨0b0011010000000011, Side.none⟩ = .ok (.acc1Step true true false)
    ∧ decode ⟨0b0011110000000010, { Side.none with vec := some ['1', '0'] }⟩ = .ok (.accnStep false true ['1', '0'])
    ∧ decode ⟨0b0100010000000001, { Side.none with vec := some [] }⟩ = .ok (.acc4Step true false [])
    ∧ decode ⟨0b0100100000000000, { Side.none with n := some 4, fmclk := some 16 }⟩ = .ok (.ncoInit 4 16)
    ∧ decode ⟨0b0101000000000000, Side.none⟩ = .ok .ncoAdvance
    ∧ decode ⟨0x0402, Side.none⟩ = .error .illegalOperation
    ∧ decode ⟨0x0410, Side.none⟩ = .error .illegalOperation
    ∧ decode ⟨0x5400, Side.none⟩ = .error .illegalOperation
    ∧ decode ⟨0x0800, { Side.none with n := some 4 }⟩ = .error .illegalOperation
    ∧ decode ⟨0x3C01, Side.none⟩ = .error .missingOperand

/-- Decoding an encoded operation gives it back, for every operation and every operand. -/
def Obligations.DecodeOfEncode : Prop := ∀ i : Instr, decode (encode i) = .ok i

/-- A command that decodes is the encoding of what it decodes to: no operation has two commands, and no bit or side
operand of a command is ignored. -/
def Obligations.EncodeOfDecode : Prop := ∀ (c : Command) (i : Instr), decode c = .ok i → encode i = c

/-- R76: exactly the listed encodings are illegal, and such a command faults with ILLEGAL_OPERATION and changes no
state beside the fault register. -/
def Obligations.IllegalEncodingsFault : Prop :=
  ∀ c : Command,
    (decode c = .error .illegalOperation ↔
      c.word.op = 0 ∨ (21 ≤ c.word.op ∧ c.word.op ≤ 63) ∨ c.word.rsv ≠ 0
        ∨ 2 ^ scalarsUsed c.word.op ≤ c.word.sc
        ∨ c.side.present.within (sidesTaken c.word.op) = false)
      ∧ ∀ s : State, s.fault = none → s.prog[s.pc]? = some c → decode c = .error .illegalOperation →
          step s = .next { s with fault := some ⟨.illegalOperation, s.pc⟩ }

/-- Decoding is total: a command decodes exactly when it is well formed, and the only other error is a missing side
operand on an otherwise legal command, which faults with MISSING_OPERAND. -/
def Obligations.MissingOperandsFault : Prop :=
  ∀ c : Command,
    ((∃ i, decode c = .ok i) ↔ c.wellFormed = true)
      ∧ (decode c = .error .missingOperand ↔ c.legal = true ∧ c.sidesComplete = false)
      ∧ ∀ s : State, s.fault = none → s.prog[s.pc]? = some c → decode c = .error .missingOperand →
          step s = .next { s with fault := some ⟨.missingOperand, s.pc⟩ }

/-! ## The sequencer, the trace and the fault register -/

/-- A step of a bench that is not halted runs the operation that the command at `pc` decodes to, and adds nothing
around it. -/
def Obligations.StepRunsDecodedInstruction : Prop :=
  ∀ (s : State) (c : Command) (i : Instr),
    s.fault = none → s.prog[s.pc]? = some c → decode c = .ok i → step s = exec i s

/-- The model's own entry for the host (log entry 2): a state with an opcode-table word placed runs that word's
operation in its very next step. -/
def Obligations.PlacedWordRunsNext : Prop :=
  ∀ (s : State) (w : Nat) (i : Instr),
    decodeTableWord 16 w = some i → step (s.withFetchWord 16 w) = exec i (s.withFetchWord 16 w)

/-- R36: `pc` starts at 0, an operation that does not fault advances it by one, one that faults leaves it, a run has
a step until it ends, and it ends completed or faulted. -/
def Obligations.SequencerAdvances : Prop :=
  State.reset.pc = 0
    ∧ (∀ s t : State, step s = .next t →
        (t.fault = none → t.pc = s.pc + 1) ∧ (t.fault ≠ none → t.pc = s.pc))
    ∧ (∀ s : State, s.fault = none → s.pc < s.prog.length → ∃ t, step s = .next t)
    ∧ (∀ s : State, s.CompletedRun → step s = .fault .runEnded)
    ∧ (∀ s : State, s.FaultedRun → ¬ s.CompletedRun ∧ ∀ t, step s ≠ .next t)

/-- R38 with the record formats of R80: the trace starts empty, an operation that completes appends exactly one
record, its mnemonic with outputs of its form, and one that faults appends nothing. -/
def Obligations.OneRecordPerCompletedOperation : Prop :=
  State.reset.trace = []
    ∧ ∀ s t : State, step s = .next t →
        (t.fault = none →
          ∃ c i outputs, s.prog[s.pc]? = some c ∧ decode c = .ok i
            ∧ outputsMatch (mnemonicOf i) outputs = true
            ∧ t.trace = s.trace ++ [{ mnemonic := mnemonicOf i, outputs := outputs }])
          ∧ (t.fault ≠ none → t.trace = s.trace)

/-- R206: a fault writes the code and the `pc` to the fault register, leaves every other field as it was, and halts
the bench; a faulted bench is never a completed run. -/
def Obligations.FaultEntryIsPrecise : Prop :=
  ∀ s t : State, step s = .next t → t.fault ≠ none →
    (∃ code, t = { s with fault := some ⟨code, s.pc⟩ })
      ∧ step t = .fault .benchHalted ∧ ¬ t.CompletedRun

/-- R207: a bench whose fault register is written has no step. -/
def Obligations.HaltedBenchHasNoStep : Prop :=
  ∀ s : State, s.fault ≠ none → step s = .fault .benchHalted

/-- R62: no operation and no step changes the program. -/
def Obligations.ProgramIsFixed : Prop :=
  (∀ (i : Instr) (s t : State), exec i s = .next t → t.prog = s.prog)
    ∧ ∀ s t : State, step s = .next t → t.prog = s.prog

/-! ## The bench as a whole -/

/-- R40: the bench at reset. -/
def Obligations.ResetState : Prop :=
  State.reset.sr.q = false
    ∧ State.reset.dff = { q := false, last := false, edge := false }
    ∧ State.reset.acc1 = { dff := { q := false, last := false, edge := false }, q := false }
    ∧ State.reset.accn = .unconstructed
    ∧ State.reset.acc4.n = 4
    ∧ State.reset.acc4.cells.length = 4
    ∧ (∀ c ∈ State.reset.acc4.cells, c = { dff := { q := false, last := false, edge := false }, q := false })
    ∧ State.reset.nco = .unconstructed
    ∧ State.reset.pc = 0
    ∧ State.reset.fault = none
    ∧ State.reset.trace = []

/-- The bench at reset meets the invariant. -/
def Obligations.ResetMeetsInvariant : Prop := State.reset.Inv

/-- Every step keeps the invariant: cells mirror their flip-flops and stay in lockstep, widths stay, the NCO's phase
register equals its settled accumulator (R31), the trace has one record for each completed operation. -/
def Obligations.StepKeepsInvariant : Prop := ∀ s t : State, s.Inv → step s = .next t → t.Inv

/-- No operation writes an entity other than its own. -/
def Obligations.OnlyOwnEntityWritten : Prop :=
  ∀ (i : Instr) (s t : State), exec i s = .next t →
    (entityOf i ≠ .sr → t.sr = s.sr) ∧ (entityOf i ≠ .dff → t.dff = s.dff)
      ∧ (entityOf i ≠ .acc1 → t.acc1 = s.acc1) ∧ (entityOf i ≠ .accn → t.accn = s.accn)
      ∧ (entityOf i ≠ .acc4 → t.acc4 = s.acc4) ∧ (entityOf i ≠ .nco → t.nco = s.nco)

/-- No operation reads an entity other than its own: with another entity replaced by anything, it does the same. -/
def Obligations.OnlyOwnEntityRead : Prop :=
  ∀ (i : Instr) (s t : State), exec i s = .next t →
    (entityOf i ≠ .sr → ∀ x, exec i { s with sr := x } = .next { t with sr := x })
      ∧ (entityOf i ≠ .dff → ∀ x, exec i { s with dff := x } = .next { t with dff := x })
      ∧ (entityOf i ≠ .acc1 → ∀ x, exec i { s with acc1 := x } = .next { t with acc1 := x })
      ∧ (entityOf i ≠ .accn → ∀ x, exec i { s with accn := x } = .next { t with accn := x })
      ∧ (entityOf i ≠ .acc4 → ∀ x, exec i { s with acc4 := x } = .next { t with acc4 := x })
      ∧ (entityOf i ≠ .nco → ∀ x, exec i { s with nco := x } = .next { t with nco := x })

/-- The structural parameters and the tuning word are written only by the operations that the table of R35 names. -/
def Obligations.ParametersWrittenOnlyByName : Prop :=
  ∀ (i : Instr) (s t : State), exec i s = .next t →
    (mnemonicOf i ≠ .accnInit → ∀ acc, s.accn = .ready acc → ∃ acc', t.accn = .ready acc' ∧ acc'.n = acc.n)
      ∧ (s.acc4.n = 4 → t.acc4.n = 4)
      ∧ (mnemonicOf i ≠ .ncoInit → ∀ x, s.nco = .ready x →
          ∃ x', t.nco = .ready x' ∧ x'.n = x.n ∧ x'.fmclk = x.fmclk
            ∧ (mnemonicOf i ≠ .ncoSetfreq → x'.tw = x.tw))

/-! ## Gates and the full adder -/

/-- NOT, AND, OR, NOR and NAND: the words of the opcode map, and an operation that outputs the gate's value and
changes nothing else. The truth tables are the spec's general knowledge (spec/93_implementation_defined.md G1). -/
def Obligations.GateOperations : Prop :=
  ∀ (a b : Bit) (s : State),
    (decode ⟨BitVec.ofNat 16 (0x0400 + a.toNat), Side.none⟩ = .ok (.not a)
        ∧ exec (.not a) s = .next { s with trace := s.trace ++ [⟨.not, [.bit !a]⟩], pc := s.pc + 1 })
      ∧ (decode ⟨BitVec.ofNat 16 (0x0800 + a.toNat + 2 * b.toNat), Side.none⟩ = .ok (.and a b)
        ∧ exec (.and a b) s = .next { s with trace := s.trace ++ [⟨.and, [.bit (a && b)]⟩], pc := s.pc + 1 })
      ∧ (decode ⟨BitVec.ofNat 16 (0x0C00 + a.toNat + 2 * b.toNat), Side.none⟩ = .ok (.or a b)
        ∧ exec (.or a b) s = .next { s with trace := s.trace ++ [⟨.or, [.bit (a || b)]⟩], pc := s.pc + 1 })
      ∧ (decode ⟨BitVec.ofNat 16 (0x1000 + a.toNat + 2 * b.toNat), Side.none⟩ = .ok (.nor a b)
        ∧ exec (.nor a b) s = .next { s with trace := s.trace ++ [⟨.nor, [.bit !(a || b)]⟩], pc := s.pc + 1 })
      ∧ (decode ⟨BitVec.ofNat 16 (0x1400 + a.toNat + 2 * b.toNat), Side.none⟩ = .ok (.nand a b)
        ∧ exec (.nand a b) s = .next { s with trace := s.trace ++ [⟨.nand, [.bit !(a && b)]⟩], pc := s.pc + 1 })

/-- XOR: composed of four NAND evaluations, it outputs 1 exactly when its inputs differ, and changes nothing else.
The wiring of the four NANDs is the spec's general knowledge (spec/93_implementation_defined.md G2). -/
def Obligations.XorFromFourNands : Prop :=
  ∀ (a b : Bit) (s : State),
    xorGate a b = nandGate (nandGate a (nandGate a b)) (nandGate b (nandGate a b))
      ∧ decode ⟨BitVec.ofNat 16 (0x1800 + a.toNat + 2 * b.toNat), Side.none⟩ = .ok (.xor a b)
      ∧ exec (.xor a b) s = .next { s with trace := s.trace ++ [⟨.xor, [.bit (a != b)]⟩], pc := s.pc + 1 }

/-- R140, R141: the full adder outputs the sum and the majority carry of any three bits, and changes nothing else. -/
def Obligations.FullAdderOperation : Prop :=
  ∀ (a b cin : Bit) (s : State),
    decode ⟨BitVec.ofNat 16 (0x1C00 + a.toNat + 2 * b.toNat + 4 * cin.toNat), Side.none⟩ = .ok (.fa a b cin)
      ∧ fullAdder a b cin = ((a ^^ b) ^^ cin, (a && b) || (b && cin) || (a && cin))
      ∧ exec (.fa a b cin) s = .next { s with
          trace := s.trace ++ [⟨.fa, [.bit (fullAdder a b cin).1, .bit (fullAdder a b cin).2]⟩], pc := s.pc + 1 }

/-! ## Storage cells -/

/-- R122: SR.INIT clears the latch and changes nothing else. -/
def Obligations.SrInitClears : Prop :=
  decode ⟨0x2000, Side.none⟩ = .ok .srInit
    ∧ ∀ s : State, exec .srInit s = .next { s with
        sr := { q := false }, trace := s.trace ++ [⟨.srInit, []⟩], pc := s.pc + 1 }

/-- R120, R123: SR.STEP holds on S=R=0, resets on R=1 whatever S, sets on S=1 R=0, and outputs the bit after the
update with its complement. -/
def Obligations.SrStepResetDominant : Prop :=
  ∀ (set rst : Bit) (s : State),
    decode ⟨BitVec.ofNat 16 (0x2400 + set.toNat + 2 * rst.toNat), Side.none⟩ = .ok (.srStep set rst)
      ∧ ∃ q : Bit,
          ((set = false ∧ rst = false → q = s.sr.q) ∧ (rst = true → q = false)
            ∧ (set = true ∧ rst = false → q = true))
          ∧ exec (.srStep set rst) s = .next { s with
              sr := { q := q }, trace := s.trace ++ [⟨.srStep, [.bit q, .bit !q]⟩], pc := s.pc + 1 }

/-- R126: DFF.INIT zeroes the stand-alone flip-flop and changes nothing else. -/
def Obligations.DffInitClears : Prop :=
  decode ⟨0x2800, Side.none⟩ = .ok .dffInit
    ∧ ∀ s : State, exec .dffInit s = .next { s with
        dff := { q := false, last := false, edge := false }
        trace := s.trace ++ [⟨.dffInit, []⟩], pc := s.pc + 1 }

/-- R127, R128: DFF.STEP stores its data exactly on a rising edge, recomputes the edge flag, remembers the clock
level, and outputs the bit after the call. -/
def Obligations.DffStepOnRisingEdge : Prop :=
  ∀ (clk d : Bit) (s : State),
    decode ⟨BitVec.ofNat 16 (0x2C00 + clk.toNat + 2 * d.toNat), Side.none⟩ = .ok (.dffStep clk d)
      ∧ ∃ q edge : Bit,
          ((edge = true ↔ clk = true ∧ s.dff.last = false) ∧ (edge = true → q = d) ∧ (edge = false → q = s.dff.q))
          ∧ exec (.dffStep clk d) s = .next { s with
              dff := { q := q, last := clk, edge := edge }
              trace := s.trace ++ [⟨.dffStep, [.bit q]⟩], pc := s.pc + 1 }

/-! ## The one-bit accumulator -/

/-- R143: ACC1.INIT zeroes the stand-alone one-bit accumulator and changes nothing else. -/
def Obligations.Acc1InitClears : Prop :=
  decode ⟨0x3000, Side.none⟩ = .ok .acc1Init
    ∧ ∀ s : State, exec .acc1Init s = .next { s with
        acc1 := { dff := { q := false, last := false, edge := false }, q := false }
        trace := s.trace ++ [⟨.acc1Init, []⟩], pc := s.pc + 1 }

/-- R142, R144: ACC1.STEP adds its inputs to the bit stored before the call, outputs sum and carry whatever the clock,
latches the sum exactly on a rising edge, and leaves the mirror equal to the flip-flop. -/
def Obligations.Acc1StepAddsStoredBit : Prop :=
  ∀ (y clk cin : Bit) (s : State),
    decode ⟨BitVec.ofNat 16 (0x3400 + y.toNat + 2 * clk.toNat + 4 * cin.toNat), Side.none⟩ = .ok (.acc1Step y clk cin)
      ∧ ∃ sum co q edge : Bit,
          (sum, co) = fullAdder y s.acc1.q cin
          ∧ (edge = true ↔ clk = true ∧ s.acc1.dff.last = false)
          ∧ (edge = true → q = sum) ∧ (edge = false → q = s.acc1.dff.q)
          ∧ exec (.acc1Step y clk cin) s = .next { s with
              acc1 := { dff := { q := q, last := clk, edge := edge }, q := q }
              trace := s.trace ++ [⟨.acc1Step, [.bit sum, .bit co]⟩], pc := s.pc + 1 }

/-! ## Vectors at the boundary -/

/-- R51: the text of a vector has one digit a bit, the most significant first, and converts back to the vector. -/
def Obligations.TextIsMostSignificantFirst : Prop :=
  ∀ v : Bits,
    (text v).length = v.length
      ∧ (∀ i, i < v.length → (text v)[v.length - 1 - i]? = (v[i]?).map fun b => if b then '1' else '0')
      ∧ parse v.length (text v) = .ok v

/-- R54: a binary digit string that fits converts to the vector whose bit `i` is character `L - 1 - i` and whose
further bits are 0, of the string's value; the same as the string padded with zeros on the left. -/
def Obligations.NarrowOperandsAreZeroPadded : Prop :=
  ∀ (w : Nat) (t : Digits), (∀ c ∈ t, c = '0' ∨ c = '1') → t.length ≤ w →
    ∃ v, parse w t = .ok v ∧ v.length = w
      ∧ (∀ i, i < t.length → v[i]? = (t[t.length - 1 - i]?).map fun c => c == '1')
      ∧ (∀ i, t.length ≤ i → i < w → v[i]? = some false)
      ∧ val v = digitsValue 0 t
      ∧ parse w (List.replicate (w - t.length) '0' ++ t) = .ok v

/-- R52, R53: a character that is no binary digit makes an accumulator step fault with INVALID_DIGIT, the length is
looked at only then, and a string longer than the width faults with WIDTH_OVERFLOW; no state changes. The empty string
passes both checks. -/
def Obligations.BadVectorsFault : Prop :=
  (∀ w : Nat, parse w [] = .ok (List.replicate w false))
    ∧ ∀ (clk cin : Bit) (t : Digits) (s : State),
    ((∃ c ∈ t, c ≠ '0' ∧ c ≠ '1') →
        exec (.acc4Step clk cin t) s = .next { s with fault := some ⟨.invalidDigit, s.pc⟩ }
          ∧ ∀ acc, s.accn = .ready acc →
              exec (.accnStep clk cin t) s = .next { s with fault := some ⟨.invalidDigit, s.pc⟩ })
      ∧ ((∀ c ∈ t, c = '0' ∨ c = '1') →
        (4 < t.length → exec (.acc4Step clk cin t) s = .next { s with fault := some ⟨.widthOverflow, s.pc⟩ })
          ∧ ∀ acc, s.accn = .ready acc → acc.n < t.length →
              exec (.accnStep clk cin t) s = .next { s with fault := some ⟨.widthOverflow, s.pc⟩ })

/-! ## The N-bit and 4-bit accumulators -/

/-- R150: in one step, index `i` is stepped as a one-bit accumulator with its own addend bit, the common clock, and
the carry of index `i - 1`; index 0 gets the external carry and the last carry is the carry-out. -/
def Obligations.RippleCarryChain : Prop :=
  ∀ (acc : AccN) (y : Bits) (clk cin : Bit), y.length = acc.cells.length →
    (accNNext acc y clk cin).1.n = acc.n
      ∧ (accNNext acc y clk cin).1.cells.length = acc.cells.length
      ∧ (accNNext acc y clk cin).2.1.length = acc.cells.length
      ∧ ∃ carry : Nat → Bit, carry 0 = cin ∧ (accNNext acc y clk cin).2.2 = carry acc.cells.length
        ∧ ∀ (i : Nat) (cell : Acc1Cell) (b : Bit), acc.cells[i]? = some cell → y[i]? = some b →
            (accNNext acc y clk cin).1.cells[i]? = some (acc1Next cell b clk (carry i)).1
              ∧ (accNNext acc y clk cin).2.1[i]? = some (acc1Next cell b clk (carry i)).2.1
              ∧ carry (i + 1) = (acc1Next cell b clk (carry i)).2.2

/-- R148: ACCN.INIT faults on a FAILED slot, makes the slot FAILED with status 1 at a width that cannot be
constructed, and otherwise builds the accumulator, all zero, with status 0. -/
def Obligations.AccnInitOutcomes : Prop :=
  ∀ (n : Nat) (s : State),
    decode ⟨0x3800, { Side.none with n := some n }⟩ = .ok (.accnInit n)
      ∧ (s.accn = .failed →
          exec (.accnInit n) s = .next { s with fault := some ⟨.useAfterConstructionFailure, s.pc⟩ })
      ∧ (s.accn ≠ .failed → (n = 0 ∨ ∃ m, s.cfg.nMax = some m ∧ m < n) →
          exec (.accnInit n) s = .next { s with
            accn := .failed, trace := s.trace ++ [⟨.accnInit, [.bit true]⟩], pc := s.pc + 1 })
      ∧ (s.accn ≠ .failed → 1 ≤ n → (∀ m, s.cfg.nMax = some m → n ≤ m) →
          exec (.accnInit n) s = .next { s with
            accn := .ready { n := n, cells := List.replicate n ⟨⟨false, false, false⟩, false⟩ }
            trace := s.trace ++ [⟨.accnInit, [.bit false]⟩], pc := s.pc + 1 })

/-- R149: ACCN.STEP on a ready accumulator with a convertible operand steps the ripple chain, stores the cells, and
outputs the sum's text and the carry-out; its faults come in the rule's order. -/
def Obligations.AccnStepOutcomes : Prop :=
  ∀ (clk cin : Bit) (t : Digits) (s : State),
    decode ⟨BitVec.ofNat 16 (0x3C00 + clk.toNat + 2 * cin.toNat), { Side.none with vec := some t }⟩
        = .ok (.accnStep clk cin t)
      ∧ (s.accn = .unconstructed →
          exec (.accnStep clk cin t) s = .next { s with fault := some ⟨.notConstructed, s.pc⟩ })
      ∧ (s.accn = .failed →
          exec (.accnStep clk cin t) s = .next { s with fault := some ⟨.useAfterConstructionFailure, s.pc⟩ })
      ∧ ∀ acc, s.accn = .ready acc →
          (∀ code, parse acc.n t = .error code →
            exec (.accnStep clk cin t) s = .next { s with fault := some ⟨code, s.pc⟩ })
          ∧ ∀ y, parse acc.n t = .ok y →
            exec (.accnStep clk cin t) s = .next { s with
              accn := .ready (accNNext acc y clk cin).1
              trace := s.trace ++
                [⟨.accnStep, [.text (text (accNNext acc y clk cin).2.1), .bit (accNNext acc y clk cin).2.2]⟩]
              pc := s.pc + 1 }

/-- ACCN.STEP adds: on a ready well-formed accumulator and a binary string that fits, the sum and the carry-out are
the exact total of register, addend and carry-in, the sum is latched exactly on a rising edge of the accumulator, and
the clock level is remembered. -/
def Obligations.AccnStepAdds : Prop :=
  ∀ (clk cin : Bit) (t : Digits) (s : State) (acc : AccN),
    s.accn = .ready acc → acc.Wf → (∀ c ∈ t, c = '0' ∨ c = '1') → t.length ≤ acc.n →
      ∃ (acc' : AccN) (sum : Bits) (co : Bit),
        exec (.accnStep clk cin t) s = .next { s with
            accn := .ready acc'
            trace := s.trace ++ [⟨.accnStep, [.text (text sum), .bit co]⟩], pc := s.pc + 1 }
          ∧ sum.length = acc.n
          ∧ val sum = (val acc.q + digitsValue 0 t + cin.toNat) % 2 ^ acc.n
          ∧ (co = true ↔ 2 ^ acc.n ≤ val acc.q + digitsValue 0 t + cin.toNat)
          ∧ acc'.q = (if clk && !acc.last then sum else acc.q)
          ∧ acc'.last = clk ∧ acc'.n = acc.n ∧ acc'.Wf

/-- R152: ACC4.INIT zeroes the 4-bit accumulator, cannot fail, and changes nothing else. -/
def Obligations.Acc4InitClears : Prop :=
  decode ⟨0x4000, Side.none⟩ = .ok .acc4Init
    ∧ ∀ s : State, exec .acc4Init s = .next { s with
        acc4 := { n := 4, cells := List.replicate 4 ⟨⟨false, false, false⟩, false⟩ }
        trace := s.trace ++ [⟨.acc4Init, []⟩], pc := s.pc + 1 }

/-- R153: ACC4.STEP is the N-bit rule at width 4, with no slot to check. -/
def Obligations.Acc4StepOutcomes : Prop :=
  ∀ (clk cin : Bit) (t : Digits) (s : State),
    decode ⟨BitVec.ofNat 16 (0x4400 + clk.toNat + 2 * cin.toNat), { Side.none with vec := some t }⟩
        = .ok (.acc4Step clk cin t)
      ∧ (∀ code, parse 4 t = .error code →
          exec (.acc4Step clk cin t) s = .next { s with fault := some ⟨code, s.pc⟩ })
      ∧ ∀ y, parse 4 t = .ok y →
          exec (.acc4Step clk cin t) s = .next { s with
            acc4 := (accNNext s.acc4 y clk cin).1
            trace := s.trace ++
              [⟨.acc4Step, [.text (text (accNNext s.acc4 y clk cin).2.1), .bit (accNNext s.acc4 y clk cin).2.2]⟩]
            pc := s.pc + 1 }

/-- ACC4.STEP adds modulo 16, as ACCN.STEP does modulo its own width. -/
def Obligations.Acc4StepAdds : Prop :=
  ∀ (clk cin : Bit) (t : Digits) (s : State),
    s.acc4.Wf → s.acc4.n = 4 → (∀ c ∈ t, c = '0' ∨ c = '1') → t.length ≤ 4 →
      ∃ (acc' : AccN) (sum : Bits) (co : Bit),
        exec (.acc4Step clk cin t) s = .next { s with
            acc4 := acc', trace := s.trace ++ [⟨.acc4Step, [.text (text sum), .bit co]⟩], pc := s.pc + 1 }
          ∧ sum.length = 4
          ∧ val sum + 16 * co.toNat = val s.acc4.q + digitsValue 0 t + cin.toNat
          ∧ acc'.q = (if clk && !s.acc4.last then sum else s.acc4.q)
          ∧ acc'.last = clk ∧ acc'.n = 4 ∧ acc'.Wf

/-- Level re-trigger: of two clock-1 steps of one entity in a row, the second stores nothing. -/
def Obligations.SecondHighClockStoresNothing : Prop :=
  (∀ (d1 d2 : Bit) (s t u : State),
      exec (.dffStep true d1) s = .next t → exec (.dffStep true d2) t = .next u → u.dff.q = t.dff.q)
    ∧ (∀ (y1 y2 c1 c2 : Bit) (s t u : State),
      exec (.acc1Step y1 true c1) s = .next t → exec (.acc1Step y2 true c2) t = .next u → u.acc1.q = t.acc1.q)
    ∧ (∀ (v1 v2 : Digits) (c1 c2 : Bit) (s t u : State) (acc1 acc2 : AccN),
      exec (.accnStep true c1 v1) s = .next t → t.pc = s.pc + 1 → exec (.accnStep true c2 v2) t = .next u →
        t.accn = .ready acc1 → u.accn = .ready acc2 → acc2.q = acc1.q)
    ∧ (∀ (v1 v2 : Digits) (c1 c2 : Bit) (s t u : State),
      exec (.acc4Step true c1 v1) s = .next t → t.pc = s.pc + 1 → exec (.acc4Step true c2 v2) t = .next u →
        u.acc4.q = t.acc4.q)

/-- Reading the register: a clock-0 step with an empty addend and no carry-in outputs the stored value, keeps it, and
re-arms the edge detection. -/
def Obligations.SettleReadsTheRegister : Prop :=
  ∀ (s : State) (acc : AccN), s.accn = .ready acc → acc.Wf →
    ∃ acc', exec (.accnStep false false []) s = .next { s with
        accn := .ready acc'
        trace := s.trace ++ [⟨.accnStep, [.text (text acc.q), .bit false]⟩], pc := s.pc + 1 }
      ∧ acc'.q = acc.q ∧ acc'.last = false ∧ acc'.Wf

/-- The pseudo-instruction ACCN.CYCLE on a settled accumulator: two operations that both output the new register
value, which is the old one plus the addend modulo `2 ^ n`, and the accumulator is settled again. -/
def Obligations.AccnCycleAccumulates : Prop :=
  ∀ (t : Digits) (s : State) (acc : AccN),
    s.fault = none → s.accn = .ready acc → acc.Wf → acc.last = false →
      (∀ c ∈ t, c = '0' ∨ c = '1') → t.length ≤ acc.n →
      ∃ (acc' : AccN) (co : Bit),
        runAll (accnCycle t) s = .next { s with
            accn := .ready acc'
            trace := s.trace ++ [⟨.accnStep, [.text (text acc'.q), .bit co]⟩]
              ++ [⟨.accnStep, [.text (text acc'.q), .bit false]⟩]
            pc := s.pc + 2 }
          ∧ acc'.n = acc.n ∧ acc'.Wf ∧ acc'.last = false
          ∧ val acc'.q = (val acc.q + digitsValue 0 t) % 2 ^ acc.n

/-! ## Slots -/

/-- R201: every operation on a FAILED slot, another initialize included, faults with USE_AFTER_CONSTRUCTION_FAILURE
and changes no state. -/
def Obligations.FailedSlotAdmitsNothing : Prop :=
  ∀ (i : Instr) (s : State),
    (entityOf i = .accn ∧ s.accn = .failed) ∨ (entityOf i = .nco ∧ s.nco = .failed) →
      exec i s = .next { s with fault := some ⟨.useAfterConstructionFailure, s.pc⟩ }

/-- R202: a step on an UNCONSTRUCTED slot faults with NOT_CONSTRUCTED and changes no state; an initialize with a width
that can be constructed constructs it. -/
def Obligations.UnconstructedSlot : Prop :=
  ∀ s : State,
    (s.accn = .unconstructed →
        (∀ clk cin t,
          exec (.accnStep clk cin t) s = .next { s with fault := some ⟨.notConstructed, s.pc⟩ })
        ∧ ∀ n, 1 ≤ n → exceedsCapacity s.cfg n = false →
            ∃ t acc, exec (.accnInit n) s = .next t ∧ t.accn = .ready acc ∧ acc.n = n)
      ∧ (s.nco = .unconstructed →
        (∀ fout, exec (.ncoSetfreq fout) s = .next { s with fault := some ⟨.notConstructed, s.pc⟩ })
        ∧ exec .ncoAdvance s = .next { s with fault := some ⟨.notConstructed, s.pc⟩ }
        ∧ ∀ n fmclk, 0 < fmclk → 1 ≤ n → exceedsCapacity s.cfg n = false →
            ∃ t x, exec (.ncoInit n fmclk) s = .next t ∧ t.nco = .ready x ∧ x.n = n)

/-! ## The numerically controlled oscillator -/

/-- R172: NCO.INIT checks the slot, then the clock frequency, then the width, and otherwise builds the NCO, its
tuning word, phase and accumulator all zero, with status 0. -/
def Obligations.NcoInitOutcomes : Prop :=
  ∀ (n : Nat) (fmclk : Rat) (s : State),
    decode ⟨0x4800, { Side.none with n := some n, fmclk := some fmclk }⟩ = .ok (.ncoInit n fmclk)
      ∧ (s.nco = .failed →
          exec (.ncoInit n fmclk) s = .next { s with fault := some ⟨.useAfterConstructionFailure, s.pc⟩ })
      ∧ (s.nco ≠ .failed → ¬ 0 < fmclk →
          exec (.ncoInit n fmclk) s = .next { s with fault := some ⟨.badFrequency, s.pc⟩ })
      ∧ (s.nco ≠ .failed → 0 < fmclk → (n = 0 ∨ ∃ m, s.cfg.nMax = some m ∧ m < n) →
          exec (.ncoInit n fmclk) s = .next { s with
            nco := .failed, trace := s.trace ++ [⟨.ncoInit, [.bit true]⟩], pc := s.pc + 1 })
      ∧ (s.nco ≠ .failed → 0 < fmclk → 1 ≤ n → (∀ m, s.cfg.nMax = some m → n ≤ m) →
          exec (.ncoInit n fmclk) s = .next { s with
            nco := .ready { n := n, fmclk := fmclk
                            tw := List.replicate n false, phase := List.replicate n false
                            acc := { n := n, cells := List.replicate n ⟨⟨false, false, false⟩, false⟩ } }
            trace := s.trace ++ [⟨.ncoInit, [.bit false]⟩], pc := s.pc + 1 })

/-- R174 with the tuning-word function of R171: NCO.SETFREQ stores the floored quotient, or all ones with the clamp
bit when it does not fit, and writes nothing else of the NCO. -/
def Obligations.NcoSetfreqOutcomes : Prop :=
  ∀ (fout : Rat) (s : State),
    decode ⟨0x4C00, { Side.none with fout := some fout }⟩ = .ok (.ncoSetfreq fout)
      ∧ (s.nco = .unconstructed →
          exec (.ncoSetfreq fout) s = .next { s with fault := some ⟨.notConstructed, s.pc⟩ })
      ∧ (s.nco = .failed →
          exec (.ncoSetfreq fout) s = .next { s with fault := some ⟨.useAfterConstructionFailure, s.pc⟩ })
      ∧ ∀ x, s.nco = .ready x →
          (fout < 0 → exec (.ncoSetfreq fout) s = .next { s with fault := some ⟨.badFrequency, s.pc⟩ })
          ∧ (0 ≤ fout → 0 < x.fmclk → ∀ k : Nat, (k : Int) = (2 ^ x.n * fout / x.fmclk).floor →
            ∃ (tw : Bits) (clamped : Bit),
              exec (.ncoSetfreq fout) s = .next { s with
                  nco := .ready { x with tw := tw }
                  trace := s.trace ++ [⟨.ncoSetfreq, [.text (text tw), .bit clamped]⟩], pc := s.pc + 1 }
                ∧ tw.length = x.n
                ∧ (2 ^ x.n - 1 < k → clamped = true ∧ tw = List.replicate x.n true)
                ∧ (k ≤ 2 ^ x.n - 1 → clamped = false ∧ val tw = k))

/-- The tuning word is within one unit below the exact quotient unless clamped; the clamp happens exactly when the
output frequency is at least the clock frequency; output frequency 0 gives the zero word. -/
def Obligations.TuningWordBounds : Prop :=
  ∀ (n : Nat) (fmclk fout : Rat), 0 < fmclk → 0 ≤ fout →
    (tuningWord n fmclk fout).1.length = n
      ∧ ((tuningWord n fmclk fout).2 = true ↔ fmclk ≤ fout)
      ∧ (fmclk ≤ fout → (tuningWord n fmclk fout).1 = List.replicate n true)
      ∧ (fout < fmclk →
          (val (tuningWord n fmclk fout).1 : Rat) ≤ 2 ^ n * fout / fmclk
            ∧ 2 ^ n * fout / fmclk < (val (tuningWord n fmclk fout).1 : Rat) + 1)
      ∧ (fout = 0 → (tuningWord n fmclk fout).1 = List.replicate n false)

/-- R175, R176: NCO.ADVANCE performs the two accumulator calls, clock 1 with the tuning word and clock 0 with zero
data, as one operation; the phase is the sum of the second call, and tuning word, width and clock stay. -/
def Obligations.NcoAdvanceOutcomes : Prop :=
  decode ⟨0x5000, Side.none⟩ = .ok .ncoAdvance
    ∧ ∀ s : State,
      (s.nco = .unconstructed → exec .ncoAdvance s = .next { s with fault := some ⟨.notConstructed, s.pc⟩ })
        ∧ (s.nco = .failed →
            exec .ncoAdvance s = .next { s with fault := some ⟨.useAfterConstructionFailure, s.pc⟩ })
        ∧ ∀ (x : NcoState) (acc1 acc2 : AccN) (s1 s2 : Bits) (co1 co2 : Bit), s.nco = .ready x →
            accNNext x.acc x.tw true false = (acc1, s1, co1) →
            accNNext acc1 (List.replicate x.n false) false false = (acc2, s2, co2) →
            exec .ncoAdvance s = .next { s with
              nco := .ready { x with acc := acc2, phase := s2 }
              trace := s.trace ++ [⟨.ncoAdvance, [.text (text s2)]⟩], pc := s.pc + 1 }

/-- Phase law: on a ready well-formed NCO, NCO.ADVANCE adds the tuning word to the phase modulo `2 ^ n`, outputs the
new phase, which again equals the settled accumulator's register value, and clears every edge flag. -/
def Obligations.NcoPhaseLaw : Prop :=
  ∀ (s : State) (x : NcoState), s.nco = .ready x → x.Wf →
    ∃ x', exec .ncoAdvance s = .next { s with
        nco := .ready x', trace := s.trace ++ [⟨.ncoAdvance, [.text (text x'.phase)]⟩], pc := s.pc + 1 }
      ∧ val x'.phase = (val x.phase + val x.tw) % 2 ^ x.n
      ∧ x'.n = x.n ∧ x'.fmclk = x.fmclk ∧ x'.tw = x.tw ∧ x'.Wf
      ∧ ∀ c ∈ x'.acc.cells, c.dff.edge = false

/-- The whole phase sequence: from a ready well-formed NCO, `k` advances output the phases `p0 + j * tw` modulo
`2 ^ n` for `j` from 1 to `k`, whatever else the bench holds, end at the last of them, and leave the NCO's tuning word,
width and clock. -/
def Obligations.NcoPhaseSequence : Prop :=
  ∀ (k : Nat) (s : State) (x : NcoState), s.fault = none → s.nco = .ready x → x.Wf →
    ∃ x', runAll (List.replicate k .ncoAdvance) s = .next { s with
        nco := .ready x'
        trace := s.trace ++ (List.range k).map fun j =>
          ⟨.ncoAdvance, [.text (text (vecOf x.n ((val x.phase + (j + 1) * val x.tw) % 2 ^ x.n)))]⟩
        pc := s.pc + k }
      ∧ val x'.phase = (val x.phase + k * val x.tw) % 2 ^ x.n
      ∧ x'.tw = x.tw ∧ x'.n = x.n ∧ x'.fmclk = x.fmclk ∧ x'.Wf

/-- Determinism across runs: two benches with the same NCO and the same capacity that run the same NCO operations
end with the same NCO and append the same records, whatever else they hold. -/
def Obligations.NcoRunsAgree : Prop :=
  ∀ (is : List Instr) (s1 s2 t1 : State),
    (∀ i ∈ is, entityOf i = .nco) → s1.nco = s2.nco → s1.cfg = s2.cfg → s1.fault = none → s2.fault = none →
      runAll is s1 = .next t1 →
      ∃ t2 records, runAll is s2 = .next t2 ∧ t2.nco = t1.nco
        ∧ t1.trace = s1.trace ++ records ∧ t2.trace = s2.trace ++ records
        ∧ (t1.fault.map FaultRecord.code) = (t2.fault.map FaultRecord.code)

/-- The pseudo-instruction NCO.START on a slot that is not FAILED, at a width and frequencies in range: the NCO runs
at the tuning word of the output frequency, from phase 0. -/
def Obligations.NcoStartConfigures : Prop :=
  ∀ (n : Nat) (fmclk fout : Rat) (s : State),
    s.fault = none → s.nco ≠ .failed → 1 ≤ n → exceedsCapacity s.cfg n = false → 0 < fmclk → 0 ≤ fout →
      ∃ t x, runAll (ncoStart n fmclk fout) s = .next t ∧ t.nco = .ready x ∧ x.Wf ∧ x.n = n ∧ x.fmclk = fmclk
        ∧ x.tw = (tuningWord n fmclk fout).1 ∧ x.phase = List.replicate n false ∧ t.pc = s.pc + 2 ∧ t.fault = none

/-! ## Syntax -/

/-- R78, R79: every line of the operations and of the pseudo-instructions, with any operand values and one space before
each operand, assembles to the commands of the operations it stands for. Three forms rest on log entry 11 (DESIGN
CHOICE) and not on R78: a quoted string of characters other than digits, which ends at the next quote, a whole number
as a frequency, and a minus sign before one. -/
def Obligations.LinesAssemble : Prop :=
  (∀ (line : List Char) (i : Instr), OperationLine line i → assemble line = some [encode i])
    ∧ ∀ (line : List Char) (is : List Instr), PseudoLine line is → assemble line = some (is.map encode)

/-! ## The model's parameter -/

/-- Log entry 3 (DESIGN CHOICE): N_MAX is a field of the state, unbounded at reset as R5's default has it, and no
operation and no step changes it. -/
def Obligations.CapacityIsFixed : Prop :=
  State.reset.cfg.nMax = none
    ∧ (∀ (i : Instr) (s t : State), exec i s = .next t → t.cfg = s.cfg)
    ∧ ∀ s t : State, step s = .next t → t.cfg = s.cfg
end

