-- ==== Sys2Proof/Laws/Accumulators.lean ====
section
/-! SUPPORT. The small laws of the gates, the flip-flop, the full adder, one cell and the ripple chain. -/

namespace Sys2Proof.Machine

@[simp] theorem xorGate_eq (a b : Bit) : xorGate a b = (a ^^ b) := by cases a <;> cases b <;> rfl

/-- In every row of the full adder's table, the inputs add up to the sum and twice the carry. -/
theorem sumBit_carryBit (a b c : Bit) :
    (sumBit a b c).toNat + 2 * (carryBit a b c).toNat = a.toNat + b.toNat + c.toNat := by
  cases a <;> cases b <;> cases c <;> rfl

section
variable (f : DffState) (clk d : Bit)

@[simp] theorem dffNext_last : (dffNext f clk d).last = clk := rfl
@[simp] theorem dffNext_edge : (dffNext f clk d).edge = risingEdge f.last clk := rfl
@[simp] theorem dffNext_q : (dffNext f clk d).q = if risingEdge f.last clk then d else f.q := rfl

end

@[simp] theorem risingEdge_low (last : Bit) : risingEdge last false = false := rfl
@[simp] theorem risingEdge_held (clk : Bit) : risingEdge true clk = false := by cases clk <;> rfl
@[simp] theorem risingEdge_high : risingEdge false true = true := rfl

section
variable (cell : Acc1Cell) (y clk cin : Bit)

@[simp] theorem acc1Next_dff :
    (acc1Next cell y clk cin).1.dff = dffNext cell.dff clk (sumBit y cell.q cin) := rfl
@[simp] theorem acc1Next_q :
    (acc1Next cell y clk cin).1.q = (dffNext cell.dff clk (sumBit y cell.q cin)).q := rfl
@[simp] theorem acc1Next_sum : (acc1Next cell y clk cin).2.1 = sumBit y cell.q cin := rfl
@[simp] theorem acc1Next_carry : (acc1Next cell y clk cin).2.2 = carryBit y cell.q cin := rfl

end

@[simp] theorem ripple_nil (clk : Bit) (y : Bits) (c : Bit) : ripple clk [] y c = ([], [], c) := rfl

theorem ripple_cons (clk : Bit) (cell : Acc1Cell) (cells : List Acc1Cell) (y : Bits) (c : Bit) :
    ripple clk (cell :: cells) y c =
      ((acc1Next cell (y.headD false) clk c).1
          :: (ripple clk cells y.tail (carryBit (y.headD false) cell.q c)).1,
        sumBit (y.headD false) cell.q c
          :: (ripple clk cells y.tail (carryBit (y.headD false) cell.q c)).2.1,
        (ripple clk cells y.tail (carryBit (y.headD false) cell.q c)).2.2) := rfl

@[simp] theorem length_ripple_cells (clk : Bit) (cells : List Acc1Cell) (y : Bits) (c : Bit) :
    (ripple clk cells y c).1.length = cells.length := by
  induction cells generalizing y c with
  | nil => rfl
  | cons cell cells ih => simp [ripple_cons, ih]

@[simp] theorem length_ripple_sum (clk : Bit) (cells : List Acc1Cell) (y : Bits) (c : Bit) :
    (ripple clk cells y c).2.1.length = cells.length := by
  induction cells generalizing y c with
  | nil => rfl
  | cons cell cells ih => simp [ripple_cons, ih]

section
variable (acc : AccN) (y : Bits) (clk cin : Bit)

@[simp] theorem accNNext_n : (accNNext acc y clk cin).1.n = acc.n := rfl
@[simp] theorem accNNext_cells : (accNNext acc y clk cin).1.cells = (ripple clk acc.cells y cin).1 := rfl
@[simp] theorem accNNext_sum : (accNNext acc y clk cin).2.1 = (ripple clk acc.cells y cin).2.1 := rfl
@[simp] theorem accNNext_carry : (accNNext acc y clk cin).2.2 = (ripple clk acc.cells y cin).2.2 := rfl

end

end Sys2Proof.Machine
end

