-- ==== Sys2Proof/Laws/Assembler.lean ====
section
/-! SUPPORT. What each reader of the assembler takes off the front of a line: one lemma per reader. -/

namespace Sys2Proof.Machine

/-- The rest of a line does not go on with a digit. -/
def EndsNumber (rest : List Char) : Prop := ∀ c ∈ rest.head?, c.isDigit = false

/-- The rest of a line is empty or goes on with a space. -/
def EndsOperand (rest : List Char) : Prop := ∀ c ∈ rest.head?, c = ' '

@[simp] theorem endsOperand_nil : EndsOperand [] := nofun
@[simp] theorem endsOperand_operand (name value rest : List Char) : EndsOperand (operand name value ++ rest) := by
  simp [EndsOperand, operand]

theorem EndsOperand.endsNumber {rest : List Char} (h : EndsOperand rest) : EndsNumber rest := by
  intro c hc
  rw [h c hc]
  decide

/-! ## Names and scalars -/

@[simp] theorem expectChars_append (p rest : List Char) : expectChars p (p ++ rest) = some rest := by
  induction p with
  | nil => cases rest <;> rfl
  | cons c p ih => simp [expectChars, ih]

/-- The name of an operand is not empty and begins with no space. -/
def nameOk (name : List Char) : Bool := name.headD ' ' != ' '

theorem expectName_operand {name : List Char} (hn : nameOk name = true) (value rest : List Char) :
    expectName name (operand name value ++ rest) = some (value ++ rest) := by
  obtain ⟨c, u, rfl⟩ := List.exists_cons_of_ne_nil (l := name) (by rintro rfl; exact absurd hn (by decide))
  have hne : c ≠ ' ' := by simpa [nameOk] using hn
  have h : operand (c :: u) value ++ rest = ' ' :: c :: (u ++ (['='] ++ (value ++ rest))) := by simp [operand]
  have h' : c :: (u ++ (['='] ++ (value ++ rest))) = (c :: u ++ ['=']) ++ (value ++ rest) := by simp
  rw [h, expectName, List.dropWhile_cons_of_neg (by simpa using hne), h', expectChars_append]

theorem bitArg_operand {name : List Char} (hn : nameOk name = true) (b : Bit) (rest : List Char) :
    bitArg name (operand name [digitOf b] ++ rest) = some (b, rest) := by
  rw [bitArg, expectName_operand hn]
  cases b <;> rfl

/-! ## Strings -/

theorem span_quote {t : Digits} (ht : quoteChar ∉ t) (rest : List Char) :
    (t ++ quoteChar :: rest).takeWhile (· != quoteChar) = t
      ∧ (t ++ quoteChar :: rest).dropWhile (· != quoteChar) = quoteChar :: rest := by
  have h : ∀ c ∈ t, (c != quoteChar) = true := fun c hc => by simpa using fun e : c = quoteChar => ht (e ▸ hc)
  rw [List.takeWhile_append_of_pos h, List.dropWhile_append_of_pos h]
  simp

theorem vecArg_operand {t : Digits} (ht : quoteChar ∉ t) (rest : List Char) :
    vecArg (operand ['y'] (quoted t) ++ rest) = some (t, rest) := by
  have h : quoted t ++ rest = quoteChar :: (t ++ quoteChar :: rest) := by simp [quoted]
  rw [vecArg, expectName_operand (by decide), h]
  simp [span_quote ht rest]

/-! ## Numbers -/

theorem readDigits_append {t rest : List Char} (ht : ∀ c ∈ t, c.isDigit = true) (hr : EndsNumber rest) (k : Nat) :
    readDigits k (t ++ rest) = (Nat.ofDigitChars 10 t k, rest) := by
  induction t generalizing k with
  | nil =>
    cases rest with
    | nil => rfl
    | cons c rest => simp [readDigits, hr c rfl]
  | cons c t ih =>
    rw [List.forall_mem_cons] at ht
    simp [readDigits, ht.1, ih ht.2, Nat.ofDigitChars, Nat.mul_comm]

theorem readNat_append {t rest : List Char} {k : Nat} (h : NatText t k) (hr : EndsNumber rest) :
    readNat (t ++ rest) = some (k, rest) := by
  have hd := readDigits_append h.digits hr 0
  rw [h.value] at hd
  cases t with
  | nil => exact absurd rfl h.nonempty
  | cons c t =>
    rw [List.cons_append] at hd ⊢
    rw [readNat, if_pos (h.digits c List.mem_cons_self), hd]

theorem readUnsignedRat_append {t rest : List Char} {q : Rat} (h : UnsignedRatText t q) (hr : EndsOperand rest) :
    readUnsignedRat (t ++ rest) = some (q, rest) := by
  cases h with
  | @decimal t f k m ht hf =>
    have h1 := readNat_append ht (rest := '.' :: (f ++ rest)) (by simp [EndsNumber])
    rw [List.append_assoc, List.append_assoc, List.singleton_append, readUnsignedRat, h1]
    simp [readNat_append hf hr.endsNumber]
  | @fraction t d k m ht hd hm =>
    have h1 := readNat_append ht (rest := '/' :: (d ++ rest)) (by simp [EndsNumber])
    rw [List.append_assoc, List.append_assoc, List.singleton_append, readUnsignedRat, h1]
    simp [readNat_append hd hr.endsNumber, hm]
  | whole ht =>
    rw [readUnsignedRat, readNat_append ht hr.endsNumber]
    cases rest with
    | nil => rfl
    | cons c rest =>
      cases hr c rfl
      rfl

/-- A frequency without a sign begins with a digit. -/
theorem UnsignedRatText.head {t : List Char} {q : Rat} (h : UnsignedRatText t q) :
    ∃ c u, t = c :: u ∧ c.isDigit = true := by
  have nat : ∀ {t : List Char} {k : Nat}, NatText t k → ∃ c u, t = c :: u ∧ c.isDigit = true := by
    intro t k h
    obtain ⟨c, u, rfl⟩ := List.exists_cons_of_ne_nil h.nonempty
    exact ⟨c, u, rfl, h.digits c List.mem_cons_self⟩
  cases h with
  | decimal ht _ | fraction ht _ _ =>
    obtain ⟨c, u, rfl, hc⟩ := nat ht
    exact ⟨c, _, rfl, hc⟩
  | whole ht => exact nat ht

theorem readRat_append {t rest : List Char} {q : Rat} (h : RatText t q) (hr : EndsOperand rest) :
    readRat (t ++ rest) = some (q, rest) := by
  cases h with
  | unsigned h =>
    have hu := readUnsignedRat_append h hr
    obtain ⟨c, u, rfl, hc⟩ := h.head
    rw [List.cons_append] at hu ⊢
    unfold readRat
    split
    · next e =>
      cases e
      exact absurd hc (by decide)
    · exact hu
  | negative h => simp [readRat, readUnsignedRat_append h hr]

theorem natArg_operand {t rest : List Char} {k : Nat} (h : NatText t k) (hr : EndsOperand rest) :
    natArg (operand ['n'] t ++ rest) = some (k, rest) := by
  rw [natArg, expectName_operand (by decide), Option.bind_some, readNat_append h hr.endsNumber]

theorem ratArg_operand {name t rest : List Char} {q : Rat} (hn : nameOk name = true) (h : RatText t q)
    (hr : EndsOperand rest) : ratArg name (operand name t ++ rest) = some (q, rest) := by
  rw [ratArg, expectName_operand hn, Option.bind_some, readRat_append h hr]

/-! ## Whole lines -/

@[simp] theorem finish_nil {α : Type} (x : α) : finish x [] = some x := rfl

/-- No mnemonic holds a space, and no two have one name. -/
theorem Mnemonic.name_spec (m : Mnemonic) :
    (∀ c ∈ m.name, (c != ' ') = true) ∧ Mnemonic.all.find? (fun x => x.name == m.name) = some m := by
  cases m <;> exact ⟨by simp [Mnemonic.name], rfl⟩

/-- A name without a space is cut off a line before its operands. -/
theorem span_name {name t : List Char} (hn : ∀ c ∈ name, (c != ' ') = true) (ht : EndsOperand t) :
    (name ++ t).takeWhile (· != ' ') = name ∧ (name ++ t).dropWhile (· != ' ') = t := by
  rw [List.takeWhile_append_of_pos hn, List.dropWhile_append_of_pos hn]
  cases t with
  | nil => simp
  | cons c t => simp [ht c rfl]

/-- A line that begins with a mnemonic is read as that mnemonic's operands. -/
theorem readLine_mnemonic (m : Mnemonic) {t : List Char} (ht : EndsOperand t) :
    readLine (m.name ++ t) = (readOperands m t).map fun i => [i] := by
  simp only [readLine, span_name m.name_spec.1 ht, m.name_spec.2]

/-- A line that begins with another name is read as a pseudo-instruction. -/
theorem readLine_pseudo {name t : List Char} (hn : ∀ c ∈ name, (c != ' ') = true)
    (hm : Mnemonic.all.find? (fun m => m.name == name) = none) (ht : EndsOperand t) :
    readLine (name ++ t) = readPseudo name t := by
  simp only [readLine, span_name hn ht, hm]

end Sys2Proof.Machine
end

