-- ==== Sys2Proof/Laws/Operands.lean ====
section
/-! SUPPORT. The small laws of vectors, their value and their text. -/

namespace Sys2Proof.Machine

@[simp] theorem val_nil : val [] = 0 := rfl
@[simp] theorem val_cons (b : Bit) (v : Bits) : val (b :: v) = b.toNat + 2 * val v := rfl

theorem val_lt (v : Bits) : val v < 2 ^ v.length := by
  induction v with
  | nil => simp
  | cons b v ih => cases b <;> simp [Nat.pow_succ] <;> omega

@[simp] theorem length_vecOf (w k : Nat) : (vecOf w k).length = w := by
  induction w generalizing k with
  | zero => rfl
  | succ w ih => simp [vecOf, ih]

theorem val_vecOf (w k : Nat) : val (vecOf w k) = k % 2 ^ w := by
  induction w generalizing k with
  | zero => simp [vecOf, Nat.mod_one]
  | succ w ih =>
    have h2 : (k % 2 == 1).toNat = k % 2 := by
      rcases Nat.mod_two_eq_zero_or_one k with h | h <;> simp [h]
    simp [vecOf, ih, h2, Nat.pow_succ, Nat.mul_comm (2 ^ w) 2, Nat.mod_mul]

@[simp] theorem length_zeros (w : Nat) : (zeros w).length = w := by simp [zeros]
@[simp] theorem length_ones (w : Nat) : (ones w).length = w := by simp [ones]

@[simp] theorem val_zeros (w : Nat) : val (zeros w) = 0 := by
  induction w with
  | zero => rfl
  | succ w ih => simpa [zeros, List.replicate_succ] using ih

theorem val_ones (w : Nat) : val (ones w) + 1 = 2 ^ w := by
  induction w with
  | zero => rfl
  | succ w ih =>
    simp only [ones, List.replicate_succ, val_cons, Bool.toNat_true, Nat.pow_succ] at ih ⊢
    omega

/-- Two vectors of one width with one value are equal. -/
theorem val_inj {v w : Bits} (hl : v.length = w.length) (h : val v = val w) : v = w := by
  induction v generalizing w with
  | nil => exact (List.length_eq_zero_iff.1 hl.symm).symm
  | cons a v ih =>
    cases w with
    | nil => simp at hl
    | cons b w =>
      have hab : a = b := by cases a <;> cases b <;> simp at h ⊢ <;> omega
      subst hab
      rw [ih (by simpa using hl) (by simpa using h)]

@[simp] theorem length_text (v : Bits) : (text v).length = v.length := by simp [text]

@[simp] theorem bitOf_digitOf (b : Bit) : bitOf (digitOf b) = b := by cases b <;> rfl
@[simp] theorem isBinaryDigit_digitOf (b : Bit) : isBinaryDigit (digitOf b) = true := by cases b <;> rfl

/-- The three answers of the boundary conversion (R52, R53, R54). -/
theorem parse_cases (w : Nat) (t : Digits) :
    (t.all isBinaryDigit = false ∧ parse w t = .error .invalidDigit)
      ∨ (t.all isBinaryDigit = true ∧ w < t.length ∧ parse w t = .error .widthOverflow)
      ∨ (t.all isBinaryDigit = true ∧ t.length ≤ w
          ∧ parse w t = .ok (t.reverse.map bitOf ++ zeros (w - t.length))) := by
  by_cases hd : t.all isBinaryDigit = true
  · by_cases hw : w < t.length
    · exact .inr (.inl ⟨hd, hw, by simp only [parse, hd, hw]; rfl⟩)
    · exact .inr (.inr ⟨hd, by omega, by simp only [parse, hd, hw]; rfl⟩)
  · rw [Bool.not_eq_true] at hd
    exact .inl ⟨hd, by simp only [parse, hd]; rfl⟩

theorem length_of_parse {w : Nat} {t : Digits} {y : Bits} (h : parse w t = .ok y) : y.length = w := by
  rcases parse_cases w t with ⟨_, e⟩ | ⟨_, _, e⟩ | ⟨_, hl, e⟩ <;> rw [e] at h
  · simp at h
  · simp at h
  · obtain rfl := by simpa using h
    simp; omega

end Sys2Proof.Machine
end

