-- ==== Sys2Proof/Laws/State.lean ====
section
/-! SUPPORT. The projections of every update of the bench, one lemma per field per update. -/

namespace Sys2Proof.Machine

section
variable (s : State) (x : SrState)

@[simp] theorem setSr_sr : (s.setSr x).sr = x := rfl
@[simp] theorem setSr_dff : (s.setSr x).dff = s.dff := rfl
@[simp] theorem setSr_acc1 : (s.setSr x).acc1 = s.acc1 := rfl
@[simp] theorem setSr_accn : (s.setSr x).accn = s.accn := rfl
@[simp] theorem setSr_acc4 : (s.setSr x).acc4 = s.acc4 := rfl
@[simp] theorem setSr_nco : (s.setSr x).nco = s.nco := rfl
@[simp] theorem setSr_pc : (s.setSr x).pc = s.pc := rfl
@[simp] theorem setSr_fault : (s.setSr x).fault = s.fault := rfl
@[simp] theorem setSr_trace : (s.setSr x).trace = s.trace := rfl
@[simp] theorem setSr_prog : (s.setSr x).prog = s.prog := rfl
@[simp] theorem setSr_cfg : (s.setSr x).cfg = s.cfg := rfl

end

section
variable (s : State) (x : DffState)

@[simp] theorem setDff_sr : (s.setDff x).sr = s.sr := rfl
@[simp] theorem setDff_dff : (s.setDff x).dff = x := rfl
@[simp] theorem setDff_acc1 : (s.setDff x).acc1 = s.acc1 := rfl
@[simp] theorem setDff_accn : (s.setDff x).accn = s.accn := rfl
@[simp] theorem setDff_acc4 : (s.setDff x).acc4 = s.acc4 := rfl
@[simp] theorem setDff_nco : (s.setDff x).nco = s.nco := rfl
@[simp] theorem setDff_pc : (s.setDff x).pc = s.pc := rfl
@[simp] theorem setDff_fault : (s.setDff x).fault = s.fault := rfl
@[simp] theorem setDff_trace : (s.setDff x).trace = s.trace := rfl
@[simp] theorem setDff_prog : (s.setDff x).prog = s.prog := rfl
@[simp] theorem setDff_cfg : (s.setDff x).cfg = s.cfg := rfl

end

section
variable (s : State) (x : Acc1Cell)

@[simp] theorem setAcc1_sr : (s.setAcc1 x).sr = s.sr := rfl
@[simp] theorem setAcc1_dff : (s.setAcc1 x).dff = s.dff := rfl
@[simp] theorem setAcc1_acc1 : (s.setAcc1 x).acc1 = x := rfl
@[simp] theorem setAcc1_accn : (s.setAcc1 x).accn = s.accn := rfl
@[simp] theorem setAcc1_acc4 : (s.setAcc1 x).acc4 = s.acc4 := rfl
@[simp] theorem setAcc1_nco : (s.setAcc1 x).nco = s.nco := rfl
@[simp] theorem setAcc1_pc : (s.setAcc1 x).pc = s.pc := rfl
@[simp] theorem setAcc1_fault : (s.setAcc1 x).fault = s.fault := rfl
@[simp] theorem setAcc1_trace : (s.setAcc1 x).trace = s.trace := rfl
@[simp] theorem setAcc1_prog : (s.setAcc1 x).prog = s.prog := rfl
@[simp] theorem setAcc1_cfg : (s.setAcc1 x).cfg = s.cfg := rfl

end

section
variable (s : State) (x : Slot AccN)

@[simp] theorem setAccn_sr : (s.setAccn x).sr = s.sr := rfl
@[simp] theorem setAccn_dff : (s.setAccn x).dff = s.dff := rfl
@[simp] theorem setAccn_acc1 : (s.setAccn x).acc1 = s.acc1 := rfl
@[simp] theorem setAccn_accn : (s.setAccn x).accn = x := rfl
@[simp] theorem setAccn_acc4 : (s.setAccn x).acc4 = s.acc4 := rfl
@[simp] theorem setAccn_nco : (s.setAccn x).nco = s.nco := rfl
@[simp] theorem setAccn_pc : (s.setAccn x).pc = s.pc := rfl
@[simp] theorem setAccn_fault : (s.setAccn x).fault = s.fault := rfl
@[simp] theorem setAccn_trace : (s.setAccn x).trace = s.trace := rfl
@[simp] theorem setAccn_prog : (s.setAccn x).prog = s.prog := rfl
@[simp] theorem setAccn_cfg : (s.setAccn x).cfg = s.cfg := rfl

end

section
variable (s : State) (x : AccN)

@[simp] theorem setAcc4_sr : (s.setAcc4 x).sr = s.sr := rfl
@[simp] theorem setAcc4_dff : (s.setAcc4 x).dff = s.dff := rfl
@[simp] theorem setAcc4_acc1 : (s.setAcc4 x).acc1 = s.acc1 := rfl
@[simp] theorem setAcc4_accn : (s.setAcc4 x).accn = s.accn := rfl
@[simp] theorem setAcc4_acc4 : (s.setAcc4 x).acc4 = x := rfl
@[simp] theorem setAcc4_nco : (s.setAcc4 x).nco = s.nco := rfl
@[simp] theorem setAcc4_pc : (s.setAcc4 x).pc = s.pc := rfl
@[simp] theorem setAcc4_fault : (s.setAcc4 x).fault = s.fault := rfl
@[simp] theorem setAcc4_trace : (s.setAcc4 x).trace = s.trace := rfl
@[simp] theorem setAcc4_prog : (s.setAcc4 x).prog = s.prog := rfl
@[simp] theorem setAcc4_cfg : (s.setAcc4 x).cfg = s.cfg := rfl

end

section
variable (s : State) (x : Slot NcoState)

@[simp] theorem setNco_sr : (s.setNco x).sr = s.sr := rfl
@[simp] theorem setNco_dff : (s.setNco x).dff = s.dff := rfl
@[simp] theorem setNco_acc1 : (s.setNco x).acc1 = s.acc1 := rfl
@[simp] theorem setNco_accn : (s.setNco x).accn = s.accn := rfl
@[simp] theorem setNco_acc4 : (s.setNco x).acc4 = s.acc4 := rfl
@[simp] theorem setNco_nco : (s.setNco x).nco = x := rfl
@[simp] theorem setNco_pc : (s.setNco x).pc = s.pc := rfl
@[simp] theorem setNco_fault : (s.setNco x).fault = s.fault := rfl
@[simp] theorem setNco_trace : (s.setNco x).trace = s.trace := rfl
@[simp] theorem setNco_prog : (s.setNco x).prog = s.prog := rfl
@[simp] theorem setNco_cfg : (s.setNco x).cfg = s.cfg := rfl

end

section
variable (s : State) (m : Mnemonic) (outputs : List OutVal)

@[simp] theorem record_sr : (s.record m outputs).sr = s.sr := rfl
@[simp] theorem record_dff : (s.record m outputs).dff = s.dff := rfl
@[simp] theorem record_acc1 : (s.record m outputs).acc1 = s.acc1 := rfl
@[simp] theorem record_accn : (s.record m outputs).accn = s.accn := rfl
@[simp] theorem record_acc4 : (s.record m outputs).acc4 = s.acc4 := rfl
@[simp] theorem record_nco : (s.record m outputs).nco = s.nco := rfl
@[simp] theorem record_pc : (s.record m outputs).pc = s.pc + 1 := rfl
@[simp] theorem record_fault : (s.record m outputs).fault = s.fault := rfl
@[simp] theorem record_trace : (s.record m outputs).trace = s.trace ++ [{ mnemonic := m, outputs := outputs }] := rfl
@[simp] theorem record_prog : (s.record m outputs).prog = s.prog := rfl
@[simp] theorem record_cfg : (s.record m outputs).cfg = s.cfg := rfl

end

section
variable (s : State) (code : FaultCode)

@[simp] theorem setFault_sr : (s.setFault code).sr = s.sr := rfl
@[simp] theorem setFault_dff : (s.setFault code).dff = s.dff := rfl
@[simp] theorem setFault_acc1 : (s.setFault code).acc1 = s.acc1 := rfl
@[simp] theorem setFault_accn : (s.setFault code).accn = s.accn := rfl
@[simp] theorem setFault_acc4 : (s.setFault code).acc4 = s.acc4 := rfl
@[simp] theorem setFault_nco : (s.setFault code).nco = s.nco := rfl
@[simp] theorem setFault_pc : (s.setFault code).pc = s.pc := rfl
@[simp] theorem setFault_fault : (s.setFault code).fault = some { code := code, pc := s.pc } := rfl
@[simp] theorem setFault_trace : (s.setFault code).trace = s.trace := rfl
@[simp] theorem setFault_prog : (s.setFault code).prog = s.prog := rfl
@[simp] theorem setFault_cfg : (s.setFault code).cfg = s.cfg := rfl

end

section
variable (s : State) (c : Command)

@[simp] theorem withCommand_sr : (s.withCommand c).sr = s.sr := rfl
@[simp] theorem withCommand_dff : (s.withCommand c).dff = s.dff := rfl
@[simp] theorem withCommand_acc1 : (s.withCommand c).acc1 = s.acc1 := rfl
@[simp] theorem withCommand_accn : (s.withCommand c).accn = s.accn := rfl
@[simp] theorem withCommand_acc4 : (s.withCommand c).acc4 = s.acc4 := rfl
@[simp] theorem withCommand_nco : (s.withCommand c).nco = s.nco := rfl
@[simp] theorem withCommand_pc : (s.withCommand c).pc = s.pc := rfl
@[simp] theorem withCommand_fault : (s.withCommand c).fault = none := rfl
@[simp] theorem withCommand_trace : (s.withCommand c).trace = s.trace := rfl
@[simp] theorem withCommand_prog : (s.withCommand c).prog = placeCommand s.pc c s.prog := rfl
@[simp] theorem withCommand_cfg : (s.withCommand c).cfg = s.cfg := rfl

end

end Sys2Proof.Machine
end

