-- ==== Sys2Proof/Laws/Ops.lean ====
section
/-! SUPPORT. What each shared operation over the bench can answer, said once. -/

namespace Sys2Proof.Machine

theorem complete_eq (m : Mnemonic) (outputs : List OutVal) (s : State) :
    complete m outputs s = .next (s.record m outputs) := rfl

theorem complete_next {m : Mnemonic} {outputs : List OutVal} {s t : State} :
    complete m outputs s = .next t ↔ t = s.record m outputs := by
  simp [complete, eq_comm]

theorem raiseFault_eq (code : FaultCode) (s : State) : raiseFault code s = .next (s.setFault code) := rfl

theorem raiseFault_next {code : FaultCode} {s t : State} :
    raiseFault code s = .next t ↔ t = s.setFault code := by
  simp [raiseFault, eq_comm]

section
variable {α : Type} (s : State) (k : α → Result) (k' : Result)

@[simp] theorem withReady_unconstructed :
    withReady .unconstructed s k = .next (s.setFault .notConstructed) := rfl
@[simp] theorem withReady_failed :
    withReady .failed s k = .next (s.setFault .useAfterConstructionFailure) := rfl
@[simp] theorem withReady_ready (x : α) : withReady (.ready x) s k = k x := rfl
@[simp] theorem unlessFailed_unconstructed : unlessFailed (.unconstructed : Slot α) s k' = k' := rfl
@[simp] theorem unlessFailed_failed :
    unlessFailed (.failed : Slot α) s k' = .next (s.setFault .useAfterConstructionFailure) := rfl
@[simp] theorem unlessFailed_ready (x : α) : unlessFailed (.ready x) s k' = k' := rfl

end

@[simp] theorem withParsed_error (code : FaultCode) (s : State) (k : Bits → Result) :
    withParsed (.error code) s k = .next (s.setFault code) := rfl
@[simp] theorem withParsed_ok (y : Bits) (s : State) (k : Bits → Result) : withParsed (.ok y) s k = k y := rfl

/-- A step on a slot ends in a slot fault or in the step's own answer. -/
theorem withReady_next {α : Type} {slot : Slot α} {s t : State} {k : α → Result} (h : withReady slot s k = .next t) :
    (slot = .unconstructed ∧ t = s.setFault .notConstructed)
      ∨ (slot = .failed ∧ t = s.setFault .useAfterConstructionFailure)
      ∨ ∃ x, slot = .ready x ∧ k x = .next t := by
  cases slot with
  | unconstructed => exact .inl ⟨rfl, by simpa [eq_comm] using h⟩
  | failed => exact .inr (.inl ⟨rfl, by simpa [eq_comm] using h⟩)
  | ready x => exact .inr (.inr ⟨x, rfl, h⟩)

/-- An initialize of a slot ends in the slot fault or in the initialize's own answer. -/
theorem unlessFailed_next {α : Type} {slot : Slot α} {s t : State} {k : Result} (h : unlessFailed slot s k = .next t) :
    (slot = .failed ∧ t = s.setFault .useAfterConstructionFailure) ∨ (slot ≠ .failed ∧ k = .next t) := by
  cases slot with
  | failed => exact .inl ⟨rfl, by simpa [eq_comm] using h⟩
  | unconstructed => exact .inr ⟨by simp, h⟩
  | ready x => exact .inr ⟨by simp, h⟩

/-- A step on a converted operand ends in the conversion's fault or in the step's own answer. -/
theorem withParsed_next {p : Except FaultCode Bits} {s t : State} {k : Bits → Result}
    (h : withParsed p s k = .next t) :
    (∃ code, p = .error code ∧ t = s.setFault code) ∨ ∃ y, p = .ok y ∧ k y = .next t := by
  cases p with
  | error code => exact .inl ⟨code, rfl, by simpa [eq_comm] using h⟩
  | ok y => exact .inr ⟨y, rfl, h⟩

/-- The fetch finds a command exactly when the bench is not halted and the program has one at `pc`. -/
theorem fetch_command {s : State} {c : Command} :
    fetch s = .command c ↔ s.fault = none ∧ s.prog[s.pc]? = some c := by
  unfold fetch
  cases hf : s.fault with
  | some f => simp
  | none => cases hp : s.prog[s.pc]? <;> simp

/-- A placed command stands at its index, and every other place that was in the program is as it was. -/
theorem placeCommand_get (k : Nat) (c : Command) (prog : List Command) :
    (placeCommand k c prog)[k]? = some c ∧
      ∀ j, j < prog.length → j ≠ k → (placeCommand k c prog)[j]? = prog[j]? := by
  induction k generalizing prog with
  | zero =>
    cases prog with
    | nil => simp [placeCommand]
    | cons d rest =>
      refine ⟨by simp [placeCommand], fun j _ hj => ?_⟩
      cases j with
      | zero => exact absurd rfl hj
      | succ j => simp [placeCommand]
  | succ k ih =>
    cases prog with
    | nil => exact ⟨by simpa [placeCommand] using (ih []).1, by simp⟩
    | cons d rest =>
      refine ⟨by simpa [placeCommand] using (ih rest).1, fun j hlt hj => ?_⟩
      cases j with
      | zero => simp [placeCommand]
      | succ j =>
        simpa [placeCommand] using (ih rest).2 j (by simpa using hlt) (by omega)

theorem fetch_withCommand (s : State) (c : Command) : fetch (s.withCommand c) = .command c :=
  fetch_command.2 ⟨rfl, (placeCommand_get s.pc c s.prog).1⟩

/-- A step that answers a next state fetched a command. -/
theorem step_next {s t : State} (h : step s = .next t) :
    ∃ c, fetch s = .command c ∧
      ((∃ e, decode c = .error e ∧ t = s.setFault (decodeFault e)) ∨ ∃ i, decode c = .ok i ∧ exec i s = .next t) := by
  unfold step at h
  cases hf : fetch s with
  | halted => simp [hf] at h
  | ended => simp [hf] at h
  | command c =>
    refine ⟨c, rfl, ?_⟩
    simp only [hf] at h
    cases hd : decode c with
    | error e => exact .inl ⟨e, rfl, by simpa [hd, raiseFault, eq_comm] using h⟩
    | ok i => exact .inr ⟨i, rfl, by simpa [hd] using h⟩

end Sys2Proof.Machine
end

