-- ==== Sys2Proof/Laws/PerInstr.lean ====
section
/-! SUPPORT. Laws of every operation as syntax, one lemma per constructor. -/

namespace Sys2Proof.Laws.EncodeWellFormed

/-- The command of an operation meets rule R76's conditions and carries every side operand it needs. -/
abbrev Statement (i : Instr) : Prop := (encode i).wellFormed = true

/-- Well-formedness looks at the word and at which side operands are present, not at their values. -/
theorem wellFormed_congr {c d : Command} (hw : c.word = d.word) (hp : c.side.present = d.side.present) :
    c.wellFormed = d.wellFormed := by
  simp only [Command.wellFormed, Command.legal, Command.sidesExpected, Command.sidesComplete, hw, hp]

theorem not (a : Bit) : Statement (.not a) := by cases a <;> decide
theorem and (a b : Bit) : Statement (.and a b) := by cases a <;> cases b <;> decide
theorem or (a b : Bit) : Statement (.or a b) := by cases a <;> cases b <;> decide
theorem nor (a b : Bit) : Statement (.nor a b) := by cases a <;> cases b <;> decide
theorem nand (a b : Bit) : Statement (.nand a b) := by cases a <;> cases b <;> decide
theorem xor (a b : Bit) : Statement (.xor a b) := by cases a <;> cases b <;> decide
theorem fa (a b cin : Bit) : Statement (.fa a b cin) := by cases a <;> cases b <;> cases cin <;> decide
theorem srInit : Statement .srInit := by decide
theorem srStep (set rst : Bit) : Statement (.srStep set rst) := by cases set <;> cases rst <;> decide
theorem dffInit : Statement .dffInit := by decide
theorem dffStep (clk d : Bit) : Statement (.dffStep clk d) := by cases clk <;> cases d <;> decide
theorem acc1Init : Statement .acc1Init := by decide
theorem acc1Step (y clk cin : Bit) : Statement (.acc1Step y clk cin) := by
  cases y <;> cases clk <;> cases cin <;> decide
theorem accnInit (n : Nat) : Statement (.accnInit n) :=
  (wellFormed_congr (d := encode (.accnInit 0)) rfl rfl).trans (by decide)
theorem accnStep (clk cin : Bit) (vec : Digits) : Statement (.accnStep clk cin vec) :=
  (wellFormed_congr (d := encode (.accnStep clk cin [])) rfl rfl).trans (by cases clk <;> cases cin <;> decide)
theorem acc4Init : Statement .acc4Init := by decide
theorem acc4Step (clk cin : Bit) (vec : Digits) : Statement (.acc4Step clk cin vec) :=
  (wellFormed_congr (d := encode (.acc4Step clk cin [])) rfl rfl).trans (by cases clk <;> cases cin <;> decide)
theorem ncoInit (n : Nat) (fmclk : Rat) : Statement (.ncoInit n fmclk) :=
  (wellFormed_congr (d := encode (.ncoInit 0 0)) rfl rfl).trans (by decide)
theorem ncoSetfreq (fout : Rat) : Statement (.ncoSetfreq fout) :=
  (wellFormed_congr (d := encode (.ncoSetfreq 0)) rfl rfl).trans (by decide)
theorem ncoAdvance : Statement .ncoAdvance := by decide

end Sys2Proof.Laws.EncodeWellFormed
end

