-- ==== Sys2Proof/Tests/Slice0.lean ====
section
/-! SUPPORT. Tests of the model against the spec's own test vectors (spec/95_test_vectors.md), and a witness for every
statement of the certificate that has hypotheses. -/

namespace Sys2Proof.Machine.Tests

/-! ## Helpers -/

/-- The next state, if there is one. -/
def answer : Result → Option State
  | .next s => some s
  | _ => none

/-- The outputs of the last record after an operation. -/
def lastOutputs (r : Result) : Option (List OutVal) :=
  (answer r).bind fun t => t.trace.getLast?.map OutRecord.outputs

/-- The fault register after an operation, as the number of its code and its `pc`. -/
def faultOf (r : Result) : Option (Nat × Nat) :=
  (answer r).bind fun t => t.fault.map fun f => (f.code.number, f.pc)

/-- A settled cell holding a bit. -/
def cellOf (q : Bit) : Acc1Cell := { dff := { q := q, last := false, edge := false }, q := q }

/-- A settled accumulator holding a vector. -/
def accOf (v : Bits) : AccN := { n := v.length, cells := v.map cellOf }

/-- The bench with a 4-bit ACCN holding a value and a 4-bit NCO at 16 Hz with tuning word 0010 and phase 0. -/
def bench (k : Nat) : State :=
  { State.reset with
    accn := .ready (accOf (vecOf 4 k))
    nco := .ready { NcoState.fresh 4 16 with tw := vecOf 4 2 } }

/-- The bench at reset with one command to run. -/
def oneCommand (w : Word) (x : Side) : State := State.reset.withCommand ⟨w, x⟩

/-- The bench at reset with both slots FAILED. -/
def failedBench : State := { State.reset with accn := .failed, nco := .failed }

/-- The bench at reset with a capacity of 4. -/
def smallBench : State := { State.reset with cfg := { nMax := some 4 } }

/-! ## Well-formedness: an ill-formed command for each check, and a well-formed one -/

theorem test_unassigned_opcode_refused : (Command.mk 0x5400 Side.none).wellFormed = false := by decide
theorem test_opcode_zero_refused : (Command.mk 0x0000 Side.none).wellFormed = false := by decide
theorem test_reserved_bit_refused : (Command.mk 0x0410 Side.none).wellFormed = false := by decide
theorem test_unused_scalar_refused : (Command.mk 0x0402 Side.none).wellFormed = false := by decide
theorem test_unexpected_side_refused :
    (Command.mk 0x0800 { Side.none with n := some 4 }).wellFormed = false := by decide
theorem test_missing_side_refused : (Command.mk 0x3C01 Side.none).wellFormed = false := by decide
theorem test_well_formed_accepted :
    (Command.mk 0x3C01 { Side.none with vec := some ['1'] }).wellFormed = true := by decide

/-! ## Decoding: one word for each constructor, its bits from the encoding column of R72 -/

theorem test_decode_not : decode ⟨0b000001_000000_0001, Side.none⟩ = .ok (.not true) := by decide
theorem test_decode_and : decode ⟨0b000010_000000_0001, Side.none⟩ = .ok (.and true false) := by decide
theorem test_decode_or : decode ⟨0b000011_000000_0010, Side.none⟩ = .ok (.or false true) := by decide
theorem test_decode_nor : decode ⟨0b000100_000000_0001, Side.none⟩ = .ok (.nor true false) := by decide
theorem test_decode_nand : decode ⟨0b000101_000000_0010, Side.none⟩ = .ok (.nand false true) := by decide
theorem test_decode_xor : decode ⟨0b000110_000000_0001, Side.none⟩ = .ok (.xor true false) := by decide
theorem test_decode_fa : decode ⟨0b000111_000000_0100, Side.none⟩ = .ok (.fa false false true) := by decide
theorem test_decode_srInit : decode ⟨0b001000_000000_0000, Side.none⟩ = .ok .srInit := by decide
theorem test_decode_srStep : decode ⟨0b001001_000000_0010, Side.none⟩ = .ok (.srStep false true) := by decide
theorem test_decode_dffInit : decode ⟨0b001010_000000_0000, Side.none⟩ = .ok .dffInit := by decide
theorem test_decode_dffStep : decode ⟨0b001011_000000_0001, Side.none⟩ = .ok (.dffStep true false) := by decide
theorem test_decode_acc1Init : decode ⟨0b001100_000000_0000, Side.none⟩ = .ok .acc1Init := by decide
theorem test_decode_acc1Step : decode ⟨0b001101_000000_0011, Side.none⟩ = .ok (.acc1Step true true false) := by decide
theorem test_decode_accnInit :
    decode ⟨0b001110_000000_0000, { Side.none with n := some 8 }⟩ = .ok (.accnInit 8) := by decide
theorem test_decode_accnStep :
    decode ⟨0b001111_000000_0001, { Side.none with vec := some ['1', '0'] }⟩
      = .ok (.accnStep true false ['1', '0']) := by decide
theorem test_decode_acc4Init : decode ⟨0b010000_000000_0000, Side.none⟩ = .ok .acc4Init := by decide
theorem test_decode_acc4Step :
    decode ⟨0b010001_000000_0010, { Side.none with vec := some [] }⟩ = .ok (.acc4Step false true []) := by decide
theorem test_decode_ncoInit :
    decode ⟨0b010010_000000_0000, { Side.none with n := some 4, fmclk := some 16 }⟩ = .ok (.ncoInit 4 16) := by decide
theorem test_decode_ncoSetfreq :
    decode ⟨0b010011_000000_0000, { Side.none with fout := some 2 }⟩ = .ok (.ncoSetfreq 2) := by decide
theorem test_decode_ncoAdvance : decode ⟨0b010100_000000_0000, Side.none⟩ = .ok .ncoAdvance := by decide
theorem test_decode_op63_illegal : decode ⟨0xFC00, Side.none⟩ = .error .illegalOperation := by decide
/-- N23: the unexpected side operand is refused before anything else is looked at. -/
theorem test_decode_unexpected_fout :
    decode ⟨0x5000, { Side.none with fout := some 2 }⟩ = .error .illegalOperation := by decide

/-! ## One step of each operation -/

theorem test_not : lastOutputs (exec (.not true) State.reset) = some [.bit false] := by decide
theorem test_and : lastOutputs (exec (.and true false) State.reset) = some [.bit false] := by decide
theorem test_or : lastOutputs (exec (.or false true) State.reset) = some [.bit true] := by decide
theorem test_nor : lastOutputs (exec (.nor false false) State.reset) = some [.bit true] := by decide
theorem test_nand : lastOutputs (exec (.nand true true) State.reset) = some [.bit false] := by decide
theorem test_xor : lastOutputs (exec (.xor true true) State.reset) = some [.bit false] := by decide
theorem test_fa_all_ones :
    lastOutputs (exec (.fa true true true) State.reset) = some [.bit true, .bit true] := by decide

/-- Part 2.3, the reset-dominant row with q = 1. -/
theorem test_sr_reset_wins :
    lastOutputs (exec (.srStep true true) { State.reset with sr := ⟨true⟩ }) = some [.bit false, .bit true] := by decide
theorem test_sr_init :
    (answer (exec .srInit { State.reset with sr := ⟨true⟩ })).map State.sr = some ⟨false⟩ := by decide

/-- W3 row 5: a second clock-1 call holds, and clears the edge flag. -/
theorem test_dff_no_retrigger :
    (answer (exec (.dffStep true false) { State.reset with dff := ⟨true, true, true⟩ })).map State.dff
      = some ⟨true, true, false⟩ := by decide
theorem test_dff_init :
    (answer (exec .dffInit { State.reset with dff := ⟨true, true, false⟩ })).map State.dff
      = some ⟨false, false, false⟩ := by decide

/-- Part 2.5, row 3: the bit toggles back with a carry. -/
theorem test_acc1_toggles_back :
    (answer (exec (.acc1Step true true false) { State.reset with acc1 := cellOf true })).map
        (fun t => (t.acc1.q, t.trace.map OutRecord.outputs)) = some (false, [[.bit false, .bit true]]) := by decide
theorem test_acc1_init :
    (answer (exec .acc1Init { State.reset with acc1 := cellOf true })).map State.acc1 = some (cellOf false) := by decide

/-- A14 and A16: a failed construction is a status, and another INIT then faults with code 4. -/
theorem test_accn_init_zero_width :
    (answer (exec (.accnInit 0) State.reset)).map (fun t => (t.accn, t.trace.map OutRecord.outputs))
      = some (.failed, [[.bit true]]) := by decide
theorem test_accn_init_after_failure : faultOf (exec (.accnInit 4) failedBench) = some (4, 0) := by decide

/-- A8: 1111 + 1111 + 1 is 1111 with carry 1. -/
theorem test_accn_step_carry_in :
    lastOutputs (exec (.accnStep true true ['1', '1', '1', '1']) (bench 15))
      = some [.text ['1', '1', '1', '1'], .bit true] := by decide
/-- A11: the digits are checked before the length. -/
theorem test_accn_step_digit_first :
    faultOf (exec (.accnStep true false ['2', '0', '0', '0', '0', '0']) (bench 0)) = some (5, 0) := by decide

/-- A20: 1111 + 0001 wraps to 0000 with carry 1. -/
theorem test_acc4_step_wraps :
    lastOutputs (exec (.acc4Step true false ['0', '0', '0', '1']) { State.reset with acc4 := accOf (ones 4) })
      = some [.text ['0', '0', '0', '0'], .bit true] := by decide
theorem test_acc4_init :
    (answer (exec .acc4Init { State.reset with acc4 := accOf (ones 4) })).map (fun t => t.acc4.q)
      = some [false, false, false, false] := by decide

/-- N18: the clock frequency is checked before the width. -/
theorem test_nco_init_frequency_first : faultOf (exec (.ncoInit 0 0) State.reset) = some (7, 0) := by decide
theorem test_nco_init_ready :
    (answer (exec (.ncoInit 4 16) State.reset)).map State.nco = some (.ready (NcoState.fresh 4 16)) := by decide

/-- N5: the quotient 11/4 is floored to 2. -/
theorem test_nco_setfreq_floors :
    lastOutputs (exec (.ncoSetfreq (11 / 4)) (bench 0)) = some [.text ['0', '0', '1', '0'], .bit false] := by
  decide +kernel
/-- N2: the quotient 16 is clamped. -/
theorem test_nco_setfreq_clamps :
    lastOutputs (exec (.ncoSetfreq 16) (bench 0)) = some [.text ['1', '1', '1', '1'], .bit true] := by decide +kernel

/-- N11: the first advance at tuning word 0010. -/
theorem test_nco_advance :
    lastOutputs (exec .ncoAdvance (bench 0)) = some [.text ['0', '0', '1', '0']] := by decide
theorem test_nco_advance_unconstructed : faultOf (exec .ncoAdvance State.reset) = some (3, 0) := by decide

/-- N8: the 32-bit tuning word 0x028F5C28. -/
theorem test_tuning_word_32 : val (tuningWord 32 100000000 1000000).1 = 0x028F5C28 := by decide +kernel

/-- R78's example line and N21's negative frequency. -/
theorem test_assemble_acc1 :
    (assemble "ACC1.STEP y=1 clk=1 cin=0".toList).map (List.map Command.word) = some [0x3403] := by decide
theorem test_assemble_negative_frequency :
    assemble "NCO.SETFREQ fout=-1".toList = some [⟨0x4C00, { Side.none with fout := some (-1) }⟩] := by decide +kernel
theorem test_assemble_decimal :
    assemble "NCO.INIT n=4 fmclk=2.75".toList
      = some [⟨0x4800, { Side.none with n := some 4, fmclk := some (11 / 4) }⟩] := by decide +kernel

/-! ## Witnesses: well-formed parts -/

theorem accOf_wf (k : Nat) : (accOf (vecOf 4 k)).Wf := by
  have hmem : ∀ c ∈ (accOf (vecOf 4 k)).cells, ∃ b, c = cellOf b := by
    intro c hc
    obtain ⟨b, -, rfl⟩ := List.mem_map.1 hc
    exact ⟨b, rfl⟩
  refine ⟨by simp [accOf, vecOf], by simp [accOf], fun c hc => ?_, fun c hc => ?_⟩
  · obtain ⟨b, rfl⟩ := hmem c hc
    exact ⟨rfl, nofun⟩
  · obtain ⟨b, rfl⟩ := hmem c hc
    rfl

theorem zero_wf : (AccN.zero 4).Wf := accOf_wf 0

/-- The NCO of the bench. -/
def benchNco : NcoState := { NcoState.fresh 4 16 with tw := vecOf 4 2 }

theorem benchNco_wf : benchNco.Wf := ⟨by decide, rfl, rfl, rfl, zero_wf, rfl, rfl⟩

/-- The bench with its two slots ready and a NOT to run. -/
def runnable : State := (bench 5).withCommand ⟨0x0401, Side.none⟩

theorem runnable_inv : runnable.Inv := by
  refine ⟨nofun, ⟨rfl, nofun⟩, zero_wf, rfl, ?_, ?_, Nat.zero_le _, nofun, rfl⟩
  · rintro acc ⟨⟩
    exact ⟨accOf_wf 5, rfl⟩
  · rintro x ⟨⟩
    exact ⟨benchNco_wf, rfl⟩

/-- A step that completes, and one that faults. -/
theorem runnable_steps : step runnable = .next (runnable.record .not [.bit false]) := rfl

def illegalBench : State := oneCommand 0x0402 Side.none

theorem illegal_steps : step illegalBench = .next (illegalBench.setFault .illegalOperation) := by
  simp only [step, illegalBench, oneCommand, fetch_withCommand]
  rfl

/-! ## Witnesses: one for each statement with hypotheses, and for each of its clauses -/

theorem witness_EncodeOfDecode : decode ⟨0x3403, Side.none⟩ = .ok (.acc1Step true true false) := by decide

theorem witness_IllegalEncodingsFault :
    illegalBench.fault = none ∧ illegalBench.prog[illegalBench.pc]? = some ⟨0x0402, Side.none⟩
      ∧ decode ⟨0x0402, Side.none⟩ = .error .illegalOperation := by decide

theorem witness_MissingOperandsFault :
    (oneCommand 0x3C01 Side.none).fault = none
      ∧ (oneCommand 0x3C01 Side.none).prog[(oneCommand 0x3C01 Side.none).pc]? = some ⟨0x3C01, Side.none⟩
      ∧ decode ⟨0x3C01, Side.none⟩ = .error .missingOperand := by decide

theorem witness_StepRunsDecodedInstruction :
    runnable.fault = none ∧ runnable.prog[runnable.pc]? = some ⟨0x0401, Side.none⟩
      ∧ decode ⟨0x0401, Side.none⟩ = .ok (.not true) := by decide

theorem witness_PlacedWordRunsNext : decodeTableWord 16 0x0401 = some (.not true) := by decide

theorem witness_SequencerAdvances_completes :
    step runnable = .next (runnable.record .not [.bit false]) ∧ (runnable.record .not [.bit false]).fault = none :=
  ⟨runnable_steps, rfl⟩

theorem witness_SequencerAdvances_faults :
    step illegalBench = .next (illegalBench.setFault .illegalOperation)
      ∧ (illegalBench.setFault .illegalOperation).fault ≠ none := ⟨illegal_steps, by decide⟩

theorem witness_SequencerAdvances_runs : runnable.fault = none ∧ runnable.pc < runnable.prog.length := by decide

theorem witness_SequencerAdvances_completed : State.reset.CompletedRun := ⟨rfl, rfl⟩

theorem witness_SequencerAdvances_faulted : (State.reset.setFault .badFrequency).FaultedRun := nofun

theorem witness_OneRecordPerCompletedOperation :
    (∃ t, step runnable = .next t ∧ t.fault = none) ∧ ∃ t, step illegalBench = .next t ∧ t.fault ≠ none :=
  ⟨⟨_, runnable_steps, rfl⟩, ⟨_, illegal_steps, nofun⟩⟩

theorem witness_FaultEntryIsPrecise : ∃ t, step illegalBench = .next t ∧ t.fault ≠ none := ⟨_, illegal_steps, nofun⟩

theorem witness_HaltedBenchHasNoStep : (State.reset.setFault .badFrequency).fault ≠ none := nofun

theorem witness_ProgramIsFixed :
    (∃ t, exec (.not true) runnable = .next t) ∧ ∃ t, step runnable = .next t := ⟨⟨_, rfl⟩, ⟨_, runnable_steps⟩⟩

theorem witness_StepKeepsInvariant : runnable.Inv ∧ ∃ t, step runnable = .next t := ⟨runnable_inv, _, runnable_steps⟩

/-- An operation that acts on no entity meets all six clauses at once. -/
theorem witness_OnlyOwnEntityWritten :
    (∃ t, exec (.not true) (bench 5) = .next t)
      ∧ ∀ e ∈ [Entity.sr, .dff, .acc1, .accn, .acc4, .nco], entityOf (.not true) ≠ e := ⟨⟨_, rfl⟩, by decide⟩

/-- An operation on the NCO meets the first five clauses at once, and one on the latch the last. -/
theorem witness_OnlyOwnEntityRead :
    ((∃ t, exec .ncoAdvance (bench 5) = .next t)
        ∧ ∀ e ∈ [Entity.sr, .dff, .acc1, .accn, .acc4], entityOf .ncoAdvance ≠ e)
      ∧ (∃ t, exec (.srStep true false) (bench 5) = .next t) ∧ entityOf (.srStep true false) ≠ .nco :=
  ⟨⟨⟨_, rfl⟩, by decide⟩, ⟨_, rfl⟩, by decide⟩

theorem witness_ParametersWrittenOnlyByName :
    (∃ t, exec .ncoAdvance (bench 5) = .next t) ∧ mnemonicOf .ncoAdvance ≠ .accnInit
      ∧ (bench 5).accn = .ready (accOf (vecOf 4 5)) ∧ (bench 5).acc4.n = 4 ∧ mnemonicOf .ncoAdvance ≠ .ncoInit
      ∧ (bench 5).nco = .ready benchNco ∧ mnemonicOf .ncoAdvance ≠ .ncoSetfreq :=
  ⟨⟨_, rfl⟩, by decide, rfl, rfl, by decide, rfl, by decide⟩

/-- Hold, reset against set, and set, each from the value that shows it. -/
theorem witness_SrStepResetDominant :
    (∃ t, exec (.srStep false false) { State.reset with sr := ⟨true⟩ } = .next t ∧ t.sr.q = true)
      ∧ (∃ t, exec (.srStep true true) { State.reset with sr := ⟨true⟩ } = .next t ∧ t.sr.q = false)
      ∧ ∃ t, exec (.srStep true false) State.reset = .next t ∧ t.sr.q = true :=
  ⟨⟨_, rfl, rfl⟩, ⟨_, rfl, rfl⟩, ⟨_, rfl, rfl⟩⟩

/-- A rising edge, and a clock-1 call that is none. -/
theorem witness_DffStepOnRisingEdge :
    (∃ t, exec (.dffStep true true) State.reset = .next t ∧ t.dff = ⟨true, true, true⟩)
      ∧ ∃ t, exec (.dffStep true true) { State.reset with dff := ⟨false, true, true⟩ } = .next t
          ∧ t.dff = ⟨false, true, false⟩ := ⟨⟨_, rfl, rfl⟩, ⟨_, rfl, rfl⟩⟩

/-- A rising edge, and a clock-0 call whose sum is output but not stored. -/
theorem witness_Acc1StepAddsStoredBit :
    (∃ t, exec (.acc1Step true true false) State.reset = .next t ∧ t.acc1.q = true)
      ∧ ∃ t, exec (.acc1Step true false false) State.reset = .next t ∧ t.acc1.q = false
          ∧ t.trace = [⟨.acc1Step, [.bit true, .bit false]⟩] := ⟨⟨_, rfl, rfl⟩, ⟨_, rfl, rfl, rfl⟩⟩

theorem witness_TextIsMostSignificantFirst : 0 < (vecOf 4 2).length ∧ 3 < (vecOf 4 2).length := by decide

theorem witness_NarrowOperandsAreZeroPadded :
    (∀ c ∈ ['1', '0'], c = '0' ∨ c = '1') ∧ ['1', '0'].length ≤ 4 ∧ 1 < ['1', '0'].length
      ∧ ['1', '0'].length ≤ 2 ∧ 2 < 4 := by simp

theorem witness_BadVectorsFault :
    (∃ c ∈ ['0', '2'], c ≠ '0' ∧ c ≠ '1') ∧ (bench 0).accn = .ready (accOf (vecOf 4 0))
      ∧ (∀ c ∈ ['0', '0', '0', '1', '0'], c = '0' ∨ c = '1') ∧ 4 < ['0', '0', '0', '1', '0'].length
      ∧ (accOf (vecOf 4 0)).n < ['0', '0', '0', '1', '0'].length :=
  ⟨⟨'2', by simp, by decide, by decide⟩, rfl, by simp, by simp, by decide⟩

theorem witness_RippleCarryChain :
    (vecOf 4 2).length = (AccN.zero 4).cells.length ∧ (AccN.zero 4).cells[3]? = some Acc1Cell.zero
      ∧ (vecOf 4 2)[3]? = some false := by decide

/-- The clauses meet at n = 0 and n = 1 without a capacity, and at n = 4 and n = 5 with capacity 4. -/
theorem witness_AccnInitOutcomes :
    failedBench.accn = .failed ∧ State.reset.accn ≠ .failed ∧ smallBench.accn ≠ .failed
      ∧ ((0 : Nat) = 0) ∧ (∃ m, smallBench.cfg.nMax = some m ∧ m < 5)
      ∧ (1 ≤ 4 ∧ ∀ m, smallBench.cfg.nMax = some m → 4 ≤ m)
      ∧ (1 ≤ 1 ∧ ∀ m, State.reset.cfg.nMax = some m → 1 ≤ m) :=
  ⟨rfl, nofun, nofun, rfl, ⟨4, rfl, by decide⟩, ⟨by decide, by rintro m ⟨⟩; decide⟩, by decide, nofun⟩

theorem witness_AccnStepOutcomes :
    State.reset.accn = .unconstructed ∧ failedBench.accn = .failed
      ∧ (bench 0).accn = .ready (accOf (vecOf 4 0))
      ∧ parse (accOf (vecOf 4 0)).n ['2'] = .error .invalidDigit
      ∧ parse (accOf (vecOf 4 0)).n ['1', '0'] = .ok (vecOf 4 2) := by decide

theorem witness_AccnStepAdds :
    (bench 5).accn = .ready (accOf (vecOf 4 5)) ∧ (accOf (vecOf 4 5)).Wf
      ∧ (∀ c ∈ ['1', '0'], c = '0' ∨ c = '1') ∧ ['1', '0'].length ≤ (accOf (vecOf 4 5)).n :=
  ⟨rfl, accOf_wf 5, by simp, by decide⟩

theorem witness_Acc4StepOutcomes :
    parse 4 ['1', '1', '1', '1', '1'] = .error .widthOverflow ∧ parse 4 ['1', '0'] = .ok (vecOf 4 2) := by decide

theorem witness_Acc4StepAdds :
    State.reset.acc4.Wf ∧ State.reset.acc4.n = 4 ∧ (∀ c ∈ ['1', '0'], c = '0' ∨ c = '1')
      ∧ ['1', '0'].length ≤ 4 := ⟨zero_wf, rfl, by simp, by simp⟩

theorem witness_SecondHighClockStoresNothing :
    (∃ t u, exec (.dffStep true true) State.reset = .next t ∧ exec (.dffStep true false) t = .next u)
      ∧ (∃ t u, exec (.acc1Step true true false) State.reset = .next t
          ∧ exec (.acc1Step true true false) t = .next u)
      ∧ (∃ t u acc1 acc2, exec (.accnStep true false ['1']) (bench 0) = .next t ∧ t.pc = (bench 0).pc + 1
          ∧ exec (.accnStep true false ['1']) t = .next u ∧ t.accn = .ready acc1 ∧ u.accn = .ready acc2)
      ∧ ∃ t u, exec (.acc4Step true false ['1']) State.reset = .next t ∧ t.pc = State.reset.pc + 1
          ∧ exec (.acc4Step true false ['1']) t = .next u :=
  ⟨⟨_, _, rfl, rfl⟩, ⟨_, _, rfl, rfl⟩, ⟨_, _, _, _, rfl, rfl, rfl, rfl, rfl⟩, ⟨_, _, rfl, rfl, rfl⟩⟩

theorem witness_SettleReadsTheRegister :
    (bench 5).accn = .ready (accOf (vecOf 4 5)) ∧ (accOf (vecOf 4 5)).Wf := ⟨rfl, accOf_wf 5⟩

theorem witness_AccnCycleAccumulates :
    (bench 5).fault = none ∧ (bench 5).accn = .ready (accOf (vecOf 4 5)) ∧ (accOf (vecOf 4 5)).Wf
      ∧ (accOf (vecOf 4 5)).last = false ∧ (∀ c ∈ ['1', '0'], c = '0' ∨ c = '1')
      ∧ ['1', '0'].length ≤ (accOf (vecOf 4 5)).n :=
  ⟨rfl, rfl, accOf_wf 5, rfl, by simp, by decide⟩

theorem witness_FailedSlotAdmitsNothing :
    (entityOf (.accnInit 4) = .accn ∧ failedBench.accn = .failed)
      ∧ (entityOf .ncoAdvance = .nco ∧ failedBench.nco = .failed) := by decide

theorem witness_UnconstructedSlot :
    State.reset.accn = .unconstructed ∧ State.reset.nco = .unconstructed ∧ 1 ≤ 1
      ∧ exceedsCapacity State.reset.cfg 1 = false ∧ (0 : Rat) < 16 := by decide

theorem witness_NcoInitOutcomes :
    failedBench.nco = .failed ∧ State.reset.nco ≠ .failed ∧ ¬ (0 : Rat) < 0 ∧ (0 : Rat) < 16 ∧ smallBench.nco ≠ .failed
      ∧ (∃ m, smallBench.cfg.nMax = some m ∧ m < 5) ∧ (1 ≤ 4 ∧ ∀ m, smallBench.cfg.nMax = some m → 4 ≤ m) :=
  ⟨rfl, nofun, by decide, by decide, nofun, ⟨4, rfl, by decide⟩, by decide, by rintro m ⟨⟩; decide⟩

/-- The frequency clauses meet at 0, and the clamp clauses at the quotients 15 and 16. -/
theorem witness_NcoSetfreqOutcomes :
    State.reset.nco = .unconstructed ∧ failedBench.nco = .failed ∧ (bench 0).nco = .ready benchNco
      ∧ (-1 : Rat) < 0 ∧ (0 : Rat) ≤ 0 ∧ 0 < benchNco.fmclk
      ∧ ((15 : Nat) : Int) = (2 ^ benchNco.n * 15 / benchNco.fmclk : Rat).floor ∧ 15 ≤ 2 ^ benchNco.n - 1
      ∧ ((16 : Nat) : Int) = (2 ^ benchNco.n * 16 / benchNco.fmclk : Rat).floor ∧ 2 ^ benchNco.n - 1 < 16 := by
  decide +kernel

theorem witness_TuningWordBounds :
    (0 : Rat) < 16 ∧ (0 : Rat) ≤ 0 ∧ (0 : Rat) ≤ 16 ∧ (16 : Rat) ≤ 16 ∧ (15 : Rat) < 16 := by decide +kernel

theorem witness_NcoAdvanceOutcomes :
    State.reset.nco = .unconstructed ∧ failedBench.nco = .failed ∧ (bench 0).nco = .ready benchNco
      ∧ ∃ acc1 acc2 s1 s2 co1 co2, accNNext benchNco.acc benchNco.tw true false = (acc1, s1, co1)
        ∧ accNNext acc1 (List.replicate benchNco.n false) false false = (acc2, s2, co2) :=
  ⟨rfl, rfl, rfl, _, _, _, _, _, _, rfl, rfl⟩

theorem witness_NcoPhaseLaw : (bench 0).nco = .ready benchNco ∧ benchNco.Wf := ⟨rfl, benchNco_wf⟩

theorem witness_NcoPhaseSequence : (bench 0).fault = none ∧ (bench 0).nco = .ready benchNco ∧ benchNco.Wf :=
  ⟨rfl, rfl, benchNco_wf⟩

theorem witness_NcoRunsAgree :
    (∀ i ∈ [Instr.ncoAdvance], entityOf i = .nco) ∧ (bench 0).nco = (bench 5).nco ∧ (bench 0).cfg = (bench 5).cfg
      ∧ (bench 0).fault = none ∧ (bench 5).fault = none ∧ ∃ t, runAll [.ncoAdvance] (bench 0) = .next t :=
  ⟨by decide, rfl, rfl, rfl, rfl, _, rfl⟩

theorem witness_NcoStartConfigures :
    State.reset.fault = none ∧ State.reset.nco ≠ .failed ∧ 1 ≤ 4 ∧ exceedsCapacity State.reset.cfg 4 = false
      ∧ (0 : Rat) < 16 ∧ (0 : Rat) ≤ 2 := by decide +kernel

/-- One line of each kind of operand: scalars, a width, an empty string, a decimal, a fraction and a negative whole
number. -/
theorem witness_LinesAssemble_operations :
    OperationLine (['F', 'A'] ++ operand ['a'] ['1'] ++ operand ['b'] ['0'] ++ operand ['c', 'i', 'n'] ['1']) (.fa true false true)
      ∧ OperationLine (['A', 'C', 'C', 'N', '.', 'I', 'N', 'I', 'T'] ++ operand ['n'] ['1', '2']) (.accnInit 12)
      ∧ OperationLine (['A', 'C', 'C', '4', '.', 'S', 'T', 'E', 'P'] ++ operand ['c', 'l', 'k'] ['0'] ++ operand ['c', 'i', 'n'] ['1']
          ++ operand ['y'] (quoted [])) (.acc4Step false true [])
      ∧ OperationLine (['N', 'C', 'O', '.', 'I', 'N', 'I', 'T'] ++ operand ['n'] ['4']
          ++ operand ['f', 'm', 'c', 'l', 'k'] ['2', '.', '7', '5']) (.ncoInit 4 ((2 : Nat) + (75 : Nat) / 10 ^ 2))
      ∧ OperationLine (['N', 'C', 'O', '.', 'S', 'E', 'T', 'F', 'R', 'E', 'Q'] ++ operand ['f', 'o', 'u', 't'] ['1', '1', '/', '4'])
         (.ncoSetfreq ((11 : Nat) / (4 : Nat)))
      ∧ OperationLine (['N', 'C', 'O', '.', 'S', 'E', 'T', 'F', 'R', 'E', 'Q'] ++ operand ['f', 'o', 'u', 't'] ['-', '1'])
         (.ncoSetfreq (-(1 : Nat))) := by
  have n12 : NatText ['1', '2'] 12 := ⟨by simp, by simp, by simp [Nat.ofDigitChars]⟩
  have n4 : NatText ['4'] 4 := ⟨by simp, by simp, by simp [Nat.ofDigitChars]⟩
  have n2 : NatText ['2'] 2 := ⟨by simp, by simp, by simp [Nat.ofDigitChars]⟩
  have n75 : NatText ['7', '5'] 75 := ⟨by simp, by simp, by simp [Nat.ofDigitChars]⟩
  have n11 : NatText ['1', '1'] 11 := ⟨by simp, by simp, by simp [Nat.ofDigitChars]⟩
  have n1 : NatText ['1'] 1 := ⟨by simp, by simp, by simp [Nat.ofDigitChars]⟩
  exact ⟨.fa true false true, .accnInit n12, .acc4Step false true (by simp),
    .ncoInit n4 (.unsigned (.decimal n2 n75)),
    .ncoSetfreq (.unsigned (.fraction n11 n4 (by simp))), .ncoSetfreq (.negative (.whole n1))⟩

theorem witness_LinesAssemble_pseudo :
    PseudoLine (['A', 'C', 'C', 'N', '.', 'C', 'Y', 'C', 'L', 'E'] ++ operand ['y'] (quoted ['1', '0']))
        [.accnStep true false ['1', '0'], .accnStep false false []]
      ∧ PseudoLine (['D', 'F', 'F', '.', 'C', 'Y', 'C', 'L', 'E'] ++ operand ['d'] ['1']) [.dffStep true true, .dffStep false true] :=
  ⟨.accnCycle (by decide), .dffCycle true⟩

theorem witness_CapacityIsFixed :
    (∃ t, exec (.accnInit 5) smallBench = .next t) ∧ ∃ t, step runnable = .next t := ⟨⟨_, rfl⟩, ⟨_, runnable_steps⟩⟩

end Sys2Proof.Machine.Tests
end

section
/-! SUPPORT. How an operation of the bench ends (R36, R38, R206), said once for every operation, and the statement
about the model's capacity field that follows from it. -/

namespace Sys2Proof.Machine

/-! ## The part of the bench that is no entity -/

/-- Two benches agree on everything but the entities: the sequencer, the fault register, the trace and the two
parameters of the run. -/
structure State.SameControl (s s' : State) : Prop where
  pc : s'.pc = s.pc
  fault : s'.fault = s.fault
  trace : s'.trace = s.trace
  prog : s'.prog = s.prog
  cfg : s'.cfg = s.cfg

namespace State.SameControl
variable (s : State)

theorem refl : s.SameControl s := ⟨rfl, rfl, rfl, rfl, rfl⟩
theorem setSr (x : SrState) : s.SameControl (s.setSr x) := ⟨rfl, rfl, rfl, rfl, rfl⟩
theorem setDff (x : DffState) : s.SameControl (s.setDff x) := ⟨rfl, rfl, rfl, rfl, rfl⟩
theorem setAcc1 (x : Acc1Cell) : s.SameControl (s.setAcc1 x) := ⟨rfl, rfl, rfl, rfl, rfl⟩
theorem setAccn (x : Slot AccN) : s.SameControl (s.setAccn x) := ⟨rfl, rfl, rfl, rfl, rfl⟩
theorem setAcc4 (x : AccN) : s.SameControl (s.setAcc4 x) := ⟨rfl, rfl, rfl, rfl, rfl⟩
theorem setNco (x : Slot NcoState) : s.SameControl (s.setNco x) := ⟨rfl, rfl, rfl, rfl, rfl⟩

end State.SameControl

/-! ## The two ends of an operation -/

/-- An answer of an operation with mnemonic `m` on the bench `s`: the fault entry on `s` itself, or a completion with
one record for `m` after writes to entities only. -/
inductive OperationEnd (m : Mnemonic) (s : State) : Result → Prop where
  | fault (code : FaultCode) : OperationEnd m s (raiseFault code s)
  | complete {s' : State} (outputs : List OutVal) (same : s.SameControl s') :
      OperationEnd m s (Machine.complete m outputs s')

namespace OperationEnd
variable {m : Mnemonic} {s : State}

theorem withReady {α : Type} {slot : Slot α} {k : α → Result} (hk : ∀ x, OperationEnd m s (k x)) :
    OperationEnd m s (Machine.withReady slot s k) := by
  cases slot with
  | unconstructed => exact .fault .notConstructed
  | failed => exact .fault .useAfterConstructionFailure
  | ready x => exact hk x

theorem unlessFailed {α : Type} {slot : Slot α} {k : Result} (hk : OperationEnd m s k) :
    OperationEnd m s (Machine.unlessFailed slot s k) := by
  cases slot with
  | failed => exact .fault .useAfterConstructionFailure
  | unconstructed => exact hk
  | ready x => exact hk

theorem withParsed {p : Except FaultCode Bits} {k : Bits → Result} (hk : ∀ y, OperationEnd m s (k y)) :
    OperationEnd m s (Machine.withParsed p s k) := by
  cases p with
  | error code => exact .fault code
  | ok y => exact hk y

theorem ite {c : Prop} [Decidable c] {r r' : Result} (h : OperationEnd m s r) (h' : OperationEnd m s r') :
    OperationEnd m s (if c then r else r') := by
  split
  · exact h
  · exact h'

/-- Neither end writes the implementation's parameters. -/
theorem cfg_eq {r : Result} (h : OperationEnd m s r) {t : State} (ht : r = .next t) : t.cfg = s.cfg := by
  cases h with
  | fault code =>
    obtain rfl := raiseFault_next.1 ht
    exact setFault_cfg s code
  | complete outputs same =>
    obtain rfl := complete_next.1 ht
    exact same.cfg

end OperationEnd

/-- Every operation ends in the fault entry or completes with one record of its own mnemonic. -/
theorem exec_operationEnd (i : Instr) (s : State) : OperationEnd (mnemonicOf i) s (exec i s) := by
  cases i with
  | not | and | or | nor | nand | xor | fa => exact .complete _ (.refl s)
  | srInit | srStep => exact .complete _ (.setSr s _)
  | dffInit | dffStep => exact .complete _ (.setDff s _)
  | acc1Init | acc1Step => exact .complete _ (.setAcc1 s _)
  | acc4Init => exact .complete _ (.setAcc4 s _)
  | acc4Step => exact .withParsed fun _ => .complete _ (.setAcc4 s _)
  | accnInit => exact .unlessFailed (.ite (.complete _ (.setAccn s _)) (.complete _ (.setAccn s _)))
  | accnStep => exact .withReady fun _ => .withParsed fun _ => .complete _ (.setAccn s _)
  | ncoInit =>
    exact .unlessFailed (.ite (.fault .badFrequency)
      (.ite (.complete _ (.setNco s _)) (.complete _ (.setNco s _))))
  | ncoSetfreq => exact .withReady fun _ => .ite (.fault .badFrequency) (.complete _ (.setNco s _))
  | ncoAdvance => exact .withReady fun _ => .complete _ (.setNco s _)

/-! ## The capacity -/

theorem exec_cfg {i : Instr} {s t : State} (h : exec i s = .next t) : t.cfg = s.cfg :=
  (exec_operationEnd i s).cfg_eq h

theorem step_cfg {s t : State} (h : step s = .next t) : t.cfg = s.cfg := by
  obtain ⟨c, -, ⟨e, -, rfl⟩ | ⟨i, -, hexec⟩⟩ := step_next h
  · exact setFault_cfg s (decodeFault e)
  · exact exec_cfg hexec

/-- Settles O52: both ends of an operation keep the parameters, and so does the fault of a command that does not
decode. -/
theorem capacityIsFixed : Obligations.CapacityIsFixed :=
  ⟨rfl, fun _ _ _ => exec_cfg, fun _ _ => step_cfg⟩

end Sys2Proof.Machine
end

section
/-! SUPPORT. What a step of the bench can do (R36, R38, R206), said once, and the statements about the sequencer, the
output trace and the reset state that follow from it. -/

namespace Sys2Proof.Machine

/-! ## Answers that may be the fault entry -/

section
variable {P : Result → Prop} {s : State} (hfault : ∀ code, P (raiseFault code s))
include hfault

theorem withReady_induction {α : Type} {slot : Slot α} {k : α → Result} (hk : ∀ x, P (k x)) :
    P (withReady slot s k) := by
  cases slot with
  | unconstructed => exact hfault .notConstructed
  | failed => exact hfault .useAfterConstructionFailure
  | ready x => exact hk x

theorem unlessFailed_induction {α : Type} {slot : Slot α} {k : Result} (hk : P k) : P (unlessFailed slot s k) := by
  cases slot with
  | failed => exact hfault .useAfterConstructionFailure
  | unconstructed => exact hk
  | ready x => exact hk

theorem withParsed_induction {p : Except FaultCode Bits} {k : Bits → Result} (hk : ∀ y, P (k y)) :
    P (withParsed p s k) := by
  cases p with
  | error code => exact hfault code
  | ok y => exact hk y

end

/-! ## The form of a record (R80) -/

/-- An answer without a fault leaves a trace whose last record has outputs of the form of its mnemonic. -/
def LastRecordFits (r : Result) : Prop :=
  ∀ t, r = .next t → t.fault = none → ∀ p ∈ t.trace.getLast?, outputsMatch p.mnemonic p.outputs = true

namespace LastRecordFits

theorem fault (s : State) (code : FaultCode) : LastRecordFits (raiseFault code s) := by
  intro t ht hnone
  obtain rfl := raiseFault_next.1 ht
  simp at hnone

theorem complete {m : Mnemonic} {outputs : List OutVal} {s : State} (h : outputsMatch m outputs = true) :
    LastRecordFits (Machine.complete m outputs s) := by
  intro t ht _ p hp
  obtain rfl := complete_next.1 ht
  obtain rfl : OutRecord.mk m outputs = p := by simpa using hp
  exact h

theorem ite {c : Prop} [Decidable c] {r r' : Result} (h : LastRecordFits r) (h' : LastRecordFits r') :
    LastRecordFits (if c then r else r') := by
  split
  · exact h
  · exact h'

end LastRecordFits

theorem exec_lastRecordFits (i : Instr) (s : State) : LastRecordFits (exec i s) := by
  have hfault := LastRecordFits.fault s
  cases i with
  | not | and | or | nor | nand | xor | fa | srInit | srStep | dffInit | dffStep | acc1Init | acc1Step | acc4Init =>
    exact .complete rfl
  | acc4Step => exact withParsed_induction hfault fun _ => .complete rfl
  | accnInit => exact unlessFailed_induction hfault (.ite (.complete rfl) (.complete rfl))
  | accnStep => exact withReady_induction hfault fun _ => withParsed_induction hfault fun _ => .complete rfl
  | ncoInit =>
    exact unlessFailed_induction hfault (.ite (hfault .badFrequency) (.ite (.complete rfl) (.complete rfl)))
  | ncoSetfreq => exact withReady_induction hfault fun _ => .ite (hfault .badFrequency) (.complete rfl)
  | ncoAdvance => exact withReady_induction hfault fun _ => .complete rfl

/-! ## What an operation can answer -/

namespace OperationEnd
variable {m : Mnemonic} {s : State} {r : Result}

/-- Both ends are next states: no operation stops the machine. -/
theorem exists_next (h : OperationEnd m s r) : ∃ t, r = .next t := by
  cases h with
  | fault code => exact ⟨_, raiseFault_eq code s⟩
  | complete outputs same => exact ⟨_, complete_eq m outputs _⟩

theorem next {t : State} (h : OperationEnd m s r) (ht : r = .next t) :
    (∃ code, t = s.setFault code) ∨ ∃ outputs s', s.SameControl s' ∧ t = s'.record m outputs := by
  cases h with
  | fault code => exact .inl ⟨code, raiseFault_next.1 ht⟩
  | complete outputs same => exact .inr ⟨outputs, _, same, complete_next.1 ht⟩

end OperationEnd

/-- On a bench that is not halted, an operation faults and writes the fault register alone, or appends one record of
its own after writes to entities only. -/
theorem exec_next {i : Instr} {s t : State} (hs : s.fault = none) (h : exec i s = .next t) :
    (∃ code, t = s.setFault code) ∨
      ∃ outputs s', outputsMatch (mnemonicOf i) outputs = true ∧ s.SameControl s'
        ∧ t = s'.record (mnemonicOf i) outputs := by
  rcases (exec_operationEnd i s).next h with hfault | ⟨outputs, s', same, rfl⟩
  · exact .inl hfault
  · have hform := exec_lastRecordFits i s _ h (same.fault.trans hs) ⟨mnemonicOf i, outputs⟩ (by simp)
    exact .inr ⟨outputs, s', hform, same, rfl⟩

/-! ## What a step can answer -/

theorem step_of_fault {s : State} (h : s.fault ≠ none) : step s = .fault .benchHalted := by
  obtain ⟨f, hf⟩ := Option.ne_none_iff_exists'.1 h
  simp [step, fetch, hf]

theorem step_of_ended {s : State} (hf : s.fault = none) (hp : s.prog[s.pc]? = none) : step s = .fault .runEnded := by
  simp [step, fetch, hf, hp]

theorem step_of_decode_error {s : State} {c : Command} {e : DecodeError} (hf : s.fault = none)
    (hp : s.prog[s.pc]? = some c) (hd : decode c = .error e) : step s = .next (s.setFault (decodeFault e)) := by
  simp [step, fetch_command.2 ⟨hf, hp⟩, hd, raiseFault_eq]

theorem step_of_decode_ok {s : State} {c : Command} {i : Instr} (hf : s.fault = none)
    (hp : s.prog[s.pc]? = some c) (hd : decode c = .ok i) : step s = exec i s := by
  simp [step, fetch_command.2 ⟨hf, hp⟩, hd]

/-- A bench that is not halted and has an operation left has a next state, whatever the operation is. -/
theorem step_exists_next {s : State} {c : Command} (hf : s.fault = none) (hp : s.prog[s.pc]? = some c) :
    ∃ t, step s = .next t := by
  cases hd : decode c with
  | error e => exact ⟨_, step_of_decode_error hf hp hd⟩
  | ok i =>
    obtain ⟨t, ht⟩ := (exec_operationEnd i s).exists_next
    exact ⟨t, (step_of_decode_ok hf hp hd).trans ht⟩

/-- A step runs on a bench that is not halted; it faults and writes the fault register alone, or it completes the
operation at `pc` with one record of that operation after writes to entities only. -/
theorem step_ends {s t : State} (h : step s = .next t) :
    s.fault = none ∧
      ((∃ code, t = s.setFault code) ∨
        ∃ c i outputs s', s.prog[s.pc]? = some c ∧ decode c = .ok i ∧ outputsMatch (mnemonicOf i) outputs = true
          ∧ s.SameControl s' ∧ t = s'.record (mnemonicOf i) outputs) := by
  obtain ⟨c, hfetch, hanswer⟩ := step_next h
  obtain ⟨hf, hp⟩ := fetch_command.1 hfetch
  refine ⟨hf, ?_⟩
  rcases hanswer with ⟨e, -, ht⟩ | ⟨i, hd, hexec⟩
  · exact .inl ⟨decodeFault e, ht⟩
  · rcases exec_next hf hexec with hfault | ⟨outputs, s', hform, same, ht⟩
    · exact .inl hfault
    · exact .inr ⟨c, i, outputs, s', hp, hd, hform, same, ht⟩

/-! ## The sequencer and the trace -/

theorem step_pc {s t : State} (h : step s = .next t) :
    (t.fault = none → t.pc = s.pc + 1) ∧ (t.fault ≠ none → t.pc = s.pc) := by
  obtain ⟨hf, ⟨code, rfl⟩ | ⟨c, i, outputs, s', -, -, -, same, rfl⟩⟩ := step_ends h
  · simp
  · simp [same.pc, same.fault, hf]

theorem step_trace {s t : State} (h : step s = .next t) :
    (t.fault = none →
        ∃ c i outputs, s.prog[s.pc]? = some c ∧ decode c = .ok i ∧ outputsMatch (mnemonicOf i) outputs = true
          ∧ t.trace = s.trace ++ [{ mnemonic := mnemonicOf i, outputs := outputs }])
      ∧ (t.fault ≠ none → t.trace = s.trace) := by
  obtain ⟨hf, ⟨code, rfl⟩ | ⟨c, i, outputs, s', hp, hd, hform, same, rfl⟩⟩ := step_ends h
  · simp
  · exact ⟨fun _ => ⟨c, i, outputs, hp, hd, hform, by simp [same.trace]⟩, fun hne => absurd (same.fault.trans hf) hne⟩

/-- Settles O8: the two ends of a step give the advance and the stay, and the fetch gives both ends of a run. -/
theorem sequencerAdvances : Obligations.SequencerAdvances := by
  refine ⟨rfl, fun _ _ => step_pc, ?progress, ?completed, ?faulted⟩
  case progress => exact fun s hf hlt => step_exists_next hf (List.getElem?_eq_getElem hlt)
  case completed =>
    rintro s ⟨hf, hpc⟩
    exact step_of_ended hf (List.getElem?_eq_none hpc.ge)
  case faulted =>
    intro s hfault
    exact ⟨fun ⟨hf, _⟩ => hfault hf, by simp [step_of_fault hfault]⟩

/-- Settles O9: only the completing end of a step writes the trace, with the one record of the decoded operation. -/
theorem oneRecordPerCompletedOperation : Obligations.OneRecordPerCompletedOperation :=
  ⟨rfl, fun _ _ => step_trace⟩

/-! ## Bench reset -/

/-- Settles O13: field by field, `acc4` as four copies of the zero cell. -/
theorem resetState : Obligations.ResetState :=
  ⟨rfl, rfl, rfl, rfl, rfl, rfl, fun _ => List.eq_of_mem_replicate, rfl, rfl, rfl, rfl⟩

end Sys2Proof.Machine
end

section
/-! SUPPORT. The program as a parameter of the run (R62), the boundary conversion of digit strings (R51 to R54), and
the four statements about them. -/

namespace Sys2Proof.Machine

/-! ## The program -/

theorem exec_prog {i : Instr} {s t : State} (h : exec i s = .next t) : t.prog = s.prog := by
  rcases (exec_operationEnd i s).next h with ⟨code, rfl⟩ | ⟨outputs, s', same, rfl⟩
  · exact setFault_prog s code
  · exact same.prog

theorem step_prog {s t : State} (h : step s = .next t) : t.prog = s.prog := by
  obtain ⟨c, -, ⟨e, -, rfl⟩ | ⟨i, -, hexec⟩⟩ := step_next h
  · exact setFault_prog s (decodeFault e)
  · exact exec_prog hexec

/-- Settles O12: neither end of an operation writes the program, nor does the fault of a command that does not
decode. -/
theorem programIsFixed : Obligations.ProgramIsFixed := ⟨fun _ _ _ => exec_prog, fun _ _ => step_prog⟩

/-! ## The three answers of the conversion -/

theorem isBinaryDigit_iff {c : Char} : isBinaryDigit c = true ↔ c = '0' ∨ c = '1' := by simp [isBinaryDigit]

theorem all_isBinaryDigit_iff {t : Digits} : t.all isBinaryDigit = true ↔ ∀ c ∈ t, c = '0' ∨ c = '1' := by
  simp only [List.all_eq_true, isBinaryDigit_iff]

/-- The digits are checked before the length: this holds at every width (R52). -/
theorem parse_of_bad_digit (w : Nat) {t : Digits} (h : ∃ c ∈ t, c ≠ '0' ∧ c ≠ '1') :
    parse w t = .error .invalidDigit := by
  obtain ⟨c, hc, h0, h1⟩ := h
  have hbad : t.all isBinaryDigit = false :=
    Bool.eq_false_iff.2 fun hall => (all_isBinaryDigit_iff.1 hall c hc).elim h0 h1
  simpa [hbad, -List.all_eq_false] using parse_cases w t

theorem parse_of_too_long {w : Nat} {t : Digits} (hd : ∀ c ∈ t, c = '0' ∨ c = '1') (hl : w < t.length) :
    parse w t = .error .widthOverflow := by
  simpa [all_isBinaryDigit_iff.2 hd, hl, Nat.not_le.2 hl, -List.all_eq_true] using parse_cases w t

/-- A binary string that fits converts to its bits, least significant first, and zeros above them (R54). -/
theorem parse_of_fits {w : Nat} {t : Digits} (hd : ∀ c ∈ t, c = '0' ∨ c = '1') (hl : t.length ≤ w) :
    parse w t = .ok (t.reverse.map bitOf ++ zeros (w - t.length)) := by
  simpa [all_isBinaryDigit_iff.2 hd, hl, Nat.not_lt.2 hl, -List.all_eq_true] using parse_cases w t

/-! ## The text of a vector -/

theorem text_binary (v : Bits) : ∀ c ∈ text v, c = '0' ∨ c = '1' := by
  have hall : (text v).all isBinaryDigit = true := by simp [text]
  exact all_isBinaryDigit_iff.1 hall

theorem text_getElem? {v : Bits} {i : Nat} (hi : i < v.length) :
    (text v)[v.length - 1 - i]? = (v[i]?).map digitOf := by
  rw [text, List.getElem?_map, List.getElem?_reverse (by omega), show v.length - 1 - (v.length - 1 - i) = i by omega]

theorem map_bitOf_reverse_text (v : Bits) : (text v).reverse.map bitOf = v := by
  simp [text, Function.comp_def]

theorem parse_text (v : Bits) : parse v.length (text v) = .ok v := by
  rw [parse_of_fits (text_binary v) (length_text v).le, map_bitOf_reverse_text, length_text, Nat.sub_self]
  exact congrArg Except.ok (List.append_nil v)

/-- Settles O28: the text reverses the vector, and the conversion reverses it back with nothing to pad. -/
theorem textIsMostSignificantFirst : Obligations.TextIsMostSignificantFirst :=
  fun v => ⟨length_text v, fun _ => text_getElem?, parse_text v⟩

/-! ## The value of a string -/

theorem val_append (u v : Bits) : val (u ++ v) = val u + 2 ^ u.length * val v := by
  induction u with
  | nil => simp
  | cons b u ih =>
    rw [List.cons_append, val_cons, val_cons, ih, List.length_cons, Nat.pow_succ]
    ring

/-- Reading digits on from `k` shifts `k` above the value of the digits' bits. -/
theorem digitsValue_eq (k : Nat) (t : Digits) :
    digitsValue k t = 2 ^ t.length * k + val (t.reverse.map bitOf) := by
  induction t generalizing k with
  | nil => simp [digitsValue]
  | cons c t ih =>
    rw [digitsValue, ih, List.reverse_cons, List.map_append, val_append]
    simp only [List.map_cons, List.map_nil, val_cons, val_nil, List.length_map, List.length_reverse, List.length_cons,
      Nat.pow_succ]
    ring

/-! ## The padded string -/

/-- Zeros on the left of a string are zeros at the high indices of its bits. -/
theorem map_bitOf_reverse_padded (k : Nat) (t : Digits) :
    (List.replicate k '0' ++ t).reverse.map bitOf = t.reverse.map bitOf ++ zeros k := by
  have hzero : bitOf '0' = false := rfl
  simp [zeros, hzero]

theorem parse_padded {w : Nat} {t : Digits} (hd : ∀ c ∈ t, c = '0' ∨ c = '1') (hl : t.length ≤ w) :
    parse w (List.replicate (w - t.length) '0' ++ t) = parse w t := by
  have hd' : ∀ c ∈ List.replicate (w - t.length) '0' ++ t, c = '0' ∨ c = '1' := by
    intro c hc
    rcases List.mem_append.1 hc with hpad | ht
    · exact .inl (List.eq_of_mem_replicate hpad)
    · exact hd c ht
  have hlen : (List.replicate (w - t.length) '0' ++ t).length = w := by
    rw [List.length_append, List.length_replicate, Nat.sub_add_cancel hl]
  rw [parse_of_fits hd' hlen.le, parse_of_fits hd hl, map_bitOf_reverse_padded, hlen, Nat.sub_self]
  exact congrArg Except.ok (List.append_nil _)

/-- Settles O29: the vector is the string's reversed bits with zeros above them; the padded string has the same
bits. -/
theorem narrowOperandsAreZeroPadded : Obligations.NarrowOperandsAreZeroPadded := by
  intro w t hd hl
  have hparse := parse_of_fits hd hl
  have hlen : (t.reverse.map bitOf).length = t.length := by simp
  refine ⟨_, hparse, length_of_parse hparse, ?low, ?high, ?value, (parse_padded hd hl).trans hparse⟩
  case low =>
    intro i hi
    rw [List.getElem?_append_left (hlen ▸ hi), List.getElem?_map, List.getElem?_reverse hi]
    rfl
  case high =>
    intro i hti hiw
    rw [List.getElem?_append_right (hlen ▸ hti), zeros, List.getElem?_replicate_of_lt (by omega)]
  case value => simp [val_append, digitsValue_eq]

/-! ## Accumulator steps on an operand that does not convert -/

theorem exec_acc4Step_of_parse_error {clk cin : Bit} {t : Digits} {s : State} {code : FaultCode}
    (h : parse 4 t = .error code) : exec (.acc4Step clk cin t) s = .next (s.setFault code) := by
  simp [exec, execAcc4Step, h]

theorem exec_accnStep_of_parse_error {clk cin : Bit} {t : Digits} {s : State} {acc : AccN} {code : FaultCode}
    (hacc : s.accn = .ready acc) (h : parse acc.n t = .error code) :
    exec (.accnStep clk cin t) s = .next (s.setFault code) := by
  simp [exec, execAccnStep, hacc, h]

/-- Settles O30: both accumulator steps raise the fault that the conversion found, on the bench as it was. -/
theorem badVectorsFault : Obligations.BadVectorsFault := by
  refine ⟨fun w => parse_of_fits nofun (Nat.zero_le w), fun clk cin t s => ⟨?digit, ?length⟩⟩
  case digit =>
    intro hbad
    exact ⟨exec_acc4Step_of_parse_error (parse_of_bad_digit 4 hbad),
      fun acc hacc => exec_accnStep_of_parse_error hacc (parse_of_bad_digit acc.n hbad)⟩
  case length =>
    intro hd
    exact ⟨fun hl => exec_acc4Step_of_parse_error (parse_of_too_long hd hl),
      fun acc hacc hl => exec_accnStep_of_parse_error hacc (parse_of_too_long hd hl)⟩

end Sys2Proof.Machine
end

section
/-! SUPPORT. The decoder's checks on the columns match and mask (R72, R75) against the list of illegal encodings (R76),
and the statement about that list. -/

namespace Sys2Proof

/-! ## The fields of a word -/

theorem Word.op_le (w : Word) : w.op ≤ 63 := by
  have hlt := w.isLt
  unfold Word.op
  omega

theorem Word.opcodeAssigned_iff {w : Word} : w.opcodeAssigned = true ↔ 1 ≤ w.op ∧ w.op ≤ 20 := by
  simp [Word.opcodeAssigned]

/-- The opcode has six bits (R71), so that one above 20 is at most 63. -/
theorem Word.opcodeAssigned_eq_false_iff {w : Word} :
    w.opcodeAssigned = false ↔ w.op = 0 ∨ (21 ≤ w.op ∧ w.op ≤ 63) := by
  have hle := w.op_le
  rw [← Bool.not_eq_true, Word.opcodeAssigned_iff]
  omega

theorem scalarsUsed_le (op : Nat) : scalarsUsed op ≤ 3 := by
  unfold scalarsUsed
  split_ifs <;> omega

/-- The bits from `k` up are the opcode above zeros exactly when the reserved bits and the scalar bits from `k` up are
0. -/
theorem Word.and_mask_eq_pattern_iff (w : Word) {k : Nat} (hk : k ≤ 3) :
    w &&& BitVec.allOnes 16 <<< k = BitVec.ofNat 16 (w.op * 1024) ↔ w.rsv = 0 ∧ w.sc < 2 ^ k := by
  have hlt := w.isLt
  rw [← BitVec.shiftLeft_ushiftRight, ← BitVec.toNat_inj]
  simp only [BitVec.toNat_shiftLeft, BitVec.toNat_ushiftRight, BitVec.toNat_ofNat, Nat.shiftLeft_eq,
    Nat.shiftRight_eq_div_pow, Word.op, Word.rsv, Word.sc]
  interval_cases k <;> omega

/-! ## The opcode map by fields -/

/-- The row of the opcode map that the fields of the word give (R71 to R73): the opcode above ten zeros, and a mask
over every bit above the scalars that the opcode uses. -/
def fieldRow (op : Nat) : Row :=
  { op := op
    pattern := BitVec.ofNat 16 (op * 1024)
    mask := BitVec.allOnes 16 <<< scalarsUsed op
    sides := sidesTaken op }

@[simp] theorem fieldRow_op (op : Nat) : (fieldRow op).op = op := rfl
@[simp] theorem fieldRow_sides (op : Nat) : (fieldRow op).sides = sidesTaken op := rfl

theorem opcodeMap_eq_map_fieldRow : opcodeMap = (List.range' 1 20).map fieldRow := by decide

theorem rowOf_eq_find_range (op : Nat) : rowOf op = ((List.range' 1 20).find? (· == op)).map fieldRow := by
  rw [rowOf, opcodeMap_eq_map_fieldRow, List.find?_map]
  rfl

theorem rowOf_of_assigned {w : Word} (h : w.opcodeAssigned = true) : rowOf w.op = some (fieldRow w.op) := by
  obtain ⟨h1, h20⟩ := Word.opcodeAssigned_iff.1 h
  have hfind : (List.range' 1 20).find? (· == w.op) = some w.op := by
    refine List.find?_range'_eq_some.2 ⟨beq_self_eq_true _, List.mem_range'_1.2 (by omega), fun op _ hlt => ?_⟩
    simpa using hlt.ne
  rw [rowOf_eq_find_range, hfind, Option.map_some]

theorem rowOf_of_unassigned {w : Word} (h : w.opcodeAssigned = false) : rowOf w.op = none := by
  have hrange := Word.opcodeAssigned_eq_false_iff.1 h
  rw [rowOf_eq_find_range, Option.map_eq_none_iff, List.find?_eq_none]
  intro op hop
  rw [List.mem_range'_1] at hop
  rw [beq_iff_eq]
  omega

/-- The decoder's comparison of a word with its row is the check of the reserved and the unused scalar bits. -/
theorem Word.matches_fieldRow_iff (w : Word) :
    w &&& (fieldRow w.op).mask = (fieldRow w.op).pattern ↔ (w.reservedClear && w.scalarsClear) = true := by
  rw [fieldRow, Word.and_mask_eq_pattern_iff w (scalarsUsed_le w.op)]
  simp [Word.reservedClear, Word.scalarsClear]

/-! ## The answer of the decoder -/

theorem Command.legal_iff {c : Command} :
    c.legal = true ↔
      c.word.opcodeAssigned = true ∧ (c.word.reservedClear && c.word.scalarsClear) = true ∧ c.sidesExpected = true := by
  simp [Command.legal, and_assoc]

/-- What is left to check of a legal command is that its side operands are all there (R75). -/
theorem decode_of_legal {c : Command} (h : c.legal = true) :
    decode c = (buildInstr c.word.op c.word c.side).elim (.error .missingOperand) .ok := by
  obtain ⟨hop, hbits, hsides⟩ := Command.legal_iff.1 h
  have hmatch := c.word.matches_fieldRow_iff.2 hbits
  rw [Command.sidesExpected] at hsides
  cases hi : buildInstr c.word.op c.word c.side <;> simp [decode, rowOf_of_assigned hop, hmatch, hsides, hi]

theorem decode_of_not_legal {c : Command} (h : c.legal = false) : decode c = .error .illegalOperation := by
  cases hop : c.word.opcodeAssigned with
  | false => simp [decode, rowOf_of_unassigned hop]
  | true =>
    by_cases hbits : (c.word.reservedClear && c.word.scalarsClear) = true
    · have hsides : c.side.present.within (sidesTaken c.word.op) = false := by
        refine Bool.eq_false_iff.2 fun hwithin => ?_
        exact Bool.eq_false_iff.1 h (Command.legal_iff.2 ⟨hop, hbits, hwithin⟩)
      simp [decode, rowOf_of_assigned hop, hsides]
    · have hne := mt c.word.matches_fieldRow_iff.1 hbits
      simp [decode, rowOf_of_assigned hop, hne]

/-- The checks that R75 answers with ILLEGAL_OPERATION are together the conditions of R76. -/
theorem decode_eq_illegal_iff {c : Command} : decode c = .error .illegalOperation ↔ c.legal = false := by
  refine ⟨fun h => ?_, decode_of_not_legal⟩
  by_contra hlegal
  rw [decode_of_legal (Bool.not_eq_false _ ▸ hlegal)] at h
  cases hi : buildInstr c.word.op c.word c.side <;> simp [hi] at h

/-- The conditions of R76 on the fields of the word. -/
theorem Command.legal_eq_false_iff {c : Command} :
    c.legal = false ↔
      c.word.op = 0 ∨ (21 ≤ c.word.op ∧ c.word.op ≤ 63) ∨ c.word.rsv ≠ 0
        ∨ 2 ^ scalarsUsed c.word.op ≤ c.word.sc
        ∨ c.side.present.within (sidesTaken c.word.op) = false := by
  simp only [Command.legal, Bool.and_eq_false_iff, Word.opcodeAssigned_eq_false_iff, Word.reservedClear,
    beq_eq_false_iff_ne, Word.scalarsClear, decide_eq_false_iff_not, Nat.not_lt, Command.sidesExpected, or_assoc]

end Sys2Proof

namespace Sys2Proof.Machine

/-- Settles O4: the decoder's illegal answers are the conditions of R76, and the step on any decoding error is the
fault entry. -/
theorem illegalEncodingsFault : Obligations.IllegalEncodingsFault := fun _ =>
  ⟨decode_eq_illegal_iff.trans Command.legal_eq_false_iff, fun _ hf hp hd => step_of_decode_error hf hp hd⟩

end Sys2Proof.Machine
end

section
/-! SUPPORT. The words of the storage operations (R72), what the SR latch and the D flip-flop store (R120, R127), and
the four statements about the storage cells. -/

namespace Sys2Proof.Machine

/-! ## The words of the two steps -/

theorem decode_srStep_word (set rst : Bit) :
    decode ⟨BitVec.ofNat 16 (0x2400 + set.toNat + 2 * rst.toNat), Side.none⟩ = .ok (.srStep set rst) := by
  cases set <;> cases rst <;> decide

theorem decode_dffStep_word (clk d : Bit) :
    decode ⟨BitVec.ofNat 16 (0x2C00 + clk.toNat + 2 * d.toNat), Side.none⟩ = .ok (.dffStep clk d) := by
  cases clk <;> cases d <;> decide

/-! ## The SR latch -/

@[simp] theorem srNext_hold (q : Bit) : srNext q false false = q := rfl
@[simp] theorem srNext_reset (q set : Bit) : srNext q set true = false := by cases set <;> rfl
@[simp] theorem srNext_set (q : Bit) : srNext q true false = true := rfl

theorem exec_srInit (s : State) : exec .srInit s = .next ((s.setSr { q := false }).record .srInit []) := rfl

theorem exec_srStep (set rst : Bit) (s : State) :
    exec (.srStep set rst) s = .next ((s.setSr { q := srNext s.sr.q set rst }).record .srStep
      [.bit (srNext s.sr.q set rst), .bit !srNext s.sr.q set rst]) := rfl

/-- Settles O22: the word decodes, and the operation is the write of the cleared latch with an empty record. -/
theorem srInitClears : Obligations.SrInitClears := ⟨by decide, exec_srInit⟩

/-- Settles O23: the bit stored and output is `srNext`, which has one equation for each of the three cases. -/
theorem srStepResetDominant : Obligations.SrStepResetDominant := by
  intro set rst s
  refine ⟨decode_srStep_word set rst, srNext s.sr.q set rst, ⟨?hold, ?reset, ?set⟩, exec_srStep set rst s⟩
  case hold =>
    rintro ⟨rfl, rfl⟩
    exact srNext_hold s.sr.q
  case reset =>
    rintro rfl
    exact srNext_reset s.sr.q set
  case set =>
    rintro ⟨rfl, rfl⟩
    exact srNext_set s.sr.q

/-! ## The D flip-flop -/

theorem risingEdge_iff {last clk : Bit} : risingEdge last clk = true ↔ clk = true ∧ last = false := by
  simp [risingEdge]

theorem dffNext_q_of_edge {f : DffState} {clk : Bit} (d : Bit) (h : risingEdge f.last clk = true) :
    (dffNext f clk d).q = d := by
  simp [h]

theorem dffNext_q_of_no_edge {f : DffState} {clk : Bit} (d : Bit) (h : risingEdge f.last clk = false) :
    (dffNext f clk d).q = f.q := by
  simp [h]

theorem exec_dffInit (s : State) : exec .dffInit s = .next ((s.setDff DffState.zero).record .dffInit []) := rfl

theorem exec_dffStep (clk d : Bit) (s : State) :
    exec (.dffStep clk d) s =
      .next ((s.setDff (dffNext s.dff clk d)).record .dffStep [.bit (dffNext s.dff clk d).q]) := rfl

/-- Settles O24: the word decodes, and the operation is the write of the zero flip-flop with an empty record. -/
theorem dffInitClears : Obligations.DffInitClears := ⟨by decide, exec_dffInit⟩

/-- Settles O25: the bit and the flag are those of `dffNext`, whose bit is the data on an edge and the stored bit
otherwise. -/
theorem dffStepOnRisingEdge : Obligations.DffStepOnRisingEdge := fun clk d s =>
  ⟨decode_dffStep_word clk d, (dffNext s.dff clk d).q, risingEdge s.dff.last clk,
    ⟨risingEdge_iff, dffNext_q_of_edge d, dffNext_q_of_no_edge d⟩, exec_dffStep clk d s⟩

end Sys2Proof.Machine
end

section
/-! SUPPORT. The words of the adder and accumulator operations (R72), the full adder and the one-bit accumulator (R140
to R144), the ripple-carry chain (R150), the widths that can be constructed (R148), and the eight statements about
them. -/

namespace Sys2Proof.Machine

/-! ## The words of the steps -/

theorem decode_fa_word (a b cin : Bit) :
    decode ⟨BitVec.ofNat 16 (0x1C00 + a.toNat + 2 * b.toNat + 4 * cin.toNat), Side.none⟩ = .ok (.fa a b cin) := by
  cases a <;> cases b <;> cases cin <;> decide

theorem decode_acc1Step_word (y clk cin : Bit) :
    decode ⟨BitVec.ofNat 16 (0x3400 + y.toNat + 2 * clk.toNat + 4 * cin.toNat), Side.none⟩
      = .ok (.acc1Step y clk cin) := by
  cases y <;> cases clk <;> cases cin <;> decide

theorem within_self (x : SideSet) : x.within x = true := by simp [SideSet.within]

/-- A word that is clear outside its operands, with exactly the side operands that its opcode takes, is decoded to the
operation that its opcode builds. -/
theorem decode_of_buildInstr {w : Word} {x : Side} {op : Nat} {i : Instr} (hop : w.op = op)
    (hword : (w.opcodeAssigned && w.reservedClear && w.scalarsClear) = true) (hsides : x.present = sidesTaken op)
    (hbuild : buildInstr op w x = some i) : decode ⟨w, x⟩ = .ok i := by
  subst hop
  have hlegal : Command.legal ⟨w, x⟩ = true := by
    rw [Command.legal, Command.sidesExpected, hword, hsides, within_self, Bool.and_self]
  rw [decode_of_legal hlegal, hbuild, Option.elim_some]

theorem decode_accnInit_command (n : Nat) :
    decode ⟨0x3800, { Side.none with n := some n }⟩ = .ok (.accnInit n) :=
  decode_of_buildInstr (op := 14) rfl rfl rfl rfl

theorem decode_accnStep_command (clk cin : Bit) (t : Digits) :
    decode ⟨BitVec.ofNat 16 (0x3C00 + clk.toNat + 2 * cin.toNat), { Side.none with vec := some t }⟩
      = .ok (.accnStep clk cin t) := by
  cases clk <;> cases cin <;> exact decode_of_buildInstr (op := 15) rfl rfl rfl (by simp [buildInstr, Word.scalar])

theorem decode_acc4Step_command (clk cin : Bit) (t : Digits) :
    decode ⟨BitVec.ofNat 16 (0x4400 + clk.toNat + 2 * cin.toNat), { Side.none with vec := some t }⟩
      = .ok (.acc4Step clk cin t) := by
  cases clk <;> cases cin <;> exact decode_of_buildInstr (op := 17) rfl rfl rfl (by simp [buildInstr, Word.scalar])

/-! ## The full adder -/

theorem fullAdder_eq (a b c : Bit) : fullAdder a b c = ((a ^^ b) ^^ c, (a && b) || (b && c) || (a && c)) := by
  simp [fullAdder, sumBit, carryBit, andGate, orGate]

theorem exec_fa (a b cin : Bit) (s : State) :
    exec (.fa a b cin) s =
      .next (s.record .fa [.bit (fullAdder a b cin).1, .bit (fullAdder a b cin).2]) := rfl

/-- Settles O21: the four-NAND XOR is the exclusive or, and the operation is a record of the adder's two outputs. -/
theorem fullAdderOperation : Obligations.FullAdderOperation := fun a b cin s =>
  ⟨decode_fa_word a b cin, fullAdder_eq a b cin, exec_fa a b cin s⟩

/-! ## The one-bit accumulator -/

theorem exec_acc1Init (s : State) : exec .acc1Init s = .next ((s.setAcc1 Acc1Cell.zero).record .acc1Init []) := rfl

theorem exec_acc1Step (y clk cin : Bit) (s : State) :
    exec (.acc1Step y clk cin) s =
      .next ((s.setAcc1 (acc1Next s.acc1 y clk cin).1).record .acc1Step
        [.bit (acc1Next s.acc1 y clk cin).2.1, .bit (acc1Next s.acc1 y clk cin).2.2]) := rfl

/-- Settles O26: the word decodes, and the operation is the write of the zero cell with an empty record. -/
theorem acc1InitClears : Obligations.Acc1InitClears := ⟨by decide, exec_acc1Init⟩

/-- Settles O27: the cell's flip-flop is `dffNext` on the adder's sum, which stores the sum on an edge and keeps its
bit otherwise, and the mirror is that flip-flop's bit. -/
theorem acc1StepAddsStoredBit : Obligations.Acc1StepAddsStoredBit := fun y clk cin s =>
  ⟨decode_acc1Step_word y clk cin, sumBit y s.acc1.q cin, carryBit y s.acc1.q cin,
    (acc1Next s.acc1 y clk cin).1.q, risingEdge s.acc1.dff.last clk, rfl, risingEdge_iff,
    dffNext_q_of_edge _, dffNext_q_of_no_edge _, exec_acc1Step y clk cin s⟩

/-! ## The ripple-carry chain -/

/-- The carry into index `i` of the chain (R150): the carry out of the chain over the cells below `i`. -/
def carryInto (clk : Bit) (cells : List Acc1Cell) (y : Bits) (cin : Bit) (i : Nat) : Bit :=
  (ripple clk (cells.take i) y cin).2.2

@[simp] theorem carryInto_zero (clk : Bit) (cells : List Acc1Cell) (y : Bits) (cin : Bit) :
    carryInto clk cells y cin 0 = cin := rfl

theorem carryInto_cons_succ (clk : Bit) (cell : Acc1Cell) (cells : List Acc1Cell) (b : Bit) (y : Bits) (cin : Bit)
    (i : Nat) :
    carryInto clk (cell :: cells) (b :: y) cin (i + 1) = carryInto clk cells y (carryBit b cell.q cin) i := rfl

theorem carryInto_length (clk : Bit) (cells : List Acc1Cell) (y : Bits) (cin : Bit) :
    carryInto clk cells y cin cells.length = (ripple clk cells y cin).2.2 := by
  rw [carryInto, List.take_length]

/-- Index `i` of the chain is stepped as a one-bit accumulator with its own addend bit and the carry into `i`, and its
carry is the carry into index `i + 1`. -/
theorem ripple_getElem? {clk : Bit} {cells : List Acc1Cell} {y : Bits} {i : Nat} {cell : Acc1Cell} {b : Bit}
    (cin : Bit) (hcell : cells[i]? = some cell) (hb : y[i]? = some b) :
    (ripple clk cells y cin).1[i]? = some (acc1Next cell b clk (carryInto clk cells y cin i)).1
      ∧ (ripple clk cells y cin).2.1[i]? = some (acc1Next cell b clk (carryInto clk cells y cin i)).2.1
      ∧ carryInto clk cells y cin (i + 1) = (acc1Next cell b clk (carryInto clk cells y cin i)).2.2 := by
  induction cells generalizing y i cin with
  | nil => simp at hcell
  | cons cell₀ cells ih =>
    cases y with
    | nil => simp at hb
    | cons b₀ y =>
      cases i with
      | zero =>
        obtain rfl : cell₀ = cell := by simpa using hcell
        obtain rfl : b₀ = b := by simpa using hb
        exact ⟨rfl, rfl, rfl⟩
      | succ i => exact ih (carryBit b₀ cell₀.q cin) hcell hb

/-- Settles O31: the chain of carries is `carryInto`, by induction on the cells. -/
theorem rippleCarryChain : Obligations.RippleCarryChain := fun acc y clk cin _ =>
  ⟨accNNext_n acc y clk cin, length_ripple_cells clk acc.cells y cin, length_ripple_sum clk acc.cells y cin,
    carryInto clk acc.cells y cin, carryInto_zero clk acc.cells y cin, (carryInto_length clk acc.cells y cin).symm,
    fun _ _ _ => ripple_getElem? cin⟩

/-! ## The construction of the N-bit accumulator -/

theorem exceedsCapacity_iff {cfg : Config} {n : Nat} :
    exceedsCapacity cfg n = true ↔ ∃ m, cfg.nMax = some m ∧ m < n := by
  unfold exceedsCapacity
  cases cfg.nMax <;> simp

theorem constructionStatus_iff {cfg : Config} {n : Nat} :
    constructionStatus cfg n = true ↔ n = 0 ∨ ∃ m, cfg.nMax = some m ∧ m < n := by
  rw [constructionStatus, Bool.or_eq_true, beq_iff_eq, exceedsCapacity_iff]

theorem constructionStatus_eq_false {cfg : Config} {n : Nat} (h1 : 1 ≤ n) (hcap : ∀ m, cfg.nMax = some m → n ≤ m) :
    constructionStatus cfg n = false := by
  rw [← Bool.not_eq_true, constructionStatus_iff]
  rintro (rfl | ⟨m, hm, hlt⟩)
  · exact Nat.not_succ_le_zero 0 h1
  · exact (hcap m hm).not_gt hlt

theorem unlessFailed_of_ne {α : Type} {slot : Slot α} (h : slot ≠ .failed) (s : State) (k : Result) :
    unlessFailed slot s k = k := by
  cases slot with
  | failed => exact absurd rfl h
  | unconstructed => rfl
  | ready x => rfl

section
variable {n : Nat} {s : State}

theorem exec_accnInit_of_failed (h : s.accn = .failed) :
    exec (.accnInit n) s = .next (s.setFault .useAfterConstructionFailure) := by
  simp [exec, execAccnInit, h]

theorem exec_accnInit_of_bad_width (h : s.accn ≠ .failed) (hn : constructionStatus s.cfg n = true) :
    exec (.accnInit n) s = .next ((s.setAccn .failed).record .accnInit [.bit true]) := by
  simp [exec, execAccnInit, unlessFailed_of_ne h, hn, complete_eq]

theorem exec_accnInit_of_good_width (h : s.accn ≠ .failed) (hn : constructionStatus s.cfg n = false) :
    exec (.accnInit n) s = .next ((s.setAccn (.ready (AccN.zero n))).record .accnInit [.bit false]) := by
  simp [exec, execAccnInit, unlessFailed_of_ne h, hn, complete_eq]

end

/-- Settles O32: the slot decides first, and the construction status then says which of the two slots is written. -/
theorem accnInitOutcomes : Obligations.AccnInitOutcomes := fun n _ =>
  ⟨decode_accnInit_command n, exec_accnInit_of_failed,
    fun h hn => exec_accnInit_of_bad_width h (constructionStatus_iff.2 hn),
    fun h h1 hcap => exec_accnInit_of_good_width h (constructionStatus_eq_false h1 hcap)⟩

/-! ## The steps of the N-bit and 4-bit accumulators -/

section
variable {clk cin : Bit} {t : Digits} {s : State}

theorem exec_accnStep_of_unconstructed (h : s.accn = .unconstructed) :
    exec (.accnStep clk cin t) s = .next (s.setFault .notConstructed) := by
  simp [exec, execAccnStep, h]

theorem exec_accnStep_of_failed (h : s.accn = .failed) :
    exec (.accnStep clk cin t) s = .next (s.setFault .useAfterConstructionFailure) := by
  simp [exec, execAccnStep, h]

theorem exec_accnStep_of_parse_ok {acc : AccN} {y : Bits} (hacc : s.accn = .ready acc) (h : parse acc.n t = .ok y) :
    exec (.accnStep clk cin t) s =
      .next ((s.setAccn (.ready (accNNext acc y clk cin).1)).record .accnStep
        [.text (text (accNNext acc y clk cin).2.1), .bit (accNNext acc y clk cin).2.2]) := by
  simp only [exec, execAccnStep, hacc, withReady_ready, h, withParsed_ok, complete_eq]

theorem exec_acc4Step_of_parse_ok {y : Bits} (h : parse 4 t = .ok y) :
    exec (.acc4Step clk cin t) s =
      .next ((s.setAcc4 (accNNext s.acc4 y clk cin).1).record .acc4Step
        [.text (text (accNNext s.acc4 y clk cin).2.1), .bit (accNNext s.acc4 y clk cin).2.2]) := by
  simp only [exec, execAcc4Step, h, withParsed_ok, complete_eq]

end

/-- Settles O33: the slot decides first, then the conversion, and a converted operand is stepped. -/
theorem accnStepOutcomes : Obligations.AccnStepOutcomes := fun clk cin t _ =>
  ⟨decode_accnStep_command clk cin t, exec_accnStep_of_unconstructed, exec_accnStep_of_failed, fun _ hacc =>
    ⟨fun _ => exec_accnStep_of_parse_error hacc, fun _ => exec_accnStep_of_parse_ok hacc⟩⟩

theorem exec_acc4Init (s : State) : exec .acc4Init s = .next ((s.setAcc4 (AccN.zero 4)).record .acc4Init []) := rfl

/-- Settles O35: the word decodes, and the operation, which looks at no slot and no width, is the write of the zero
accumulator with an empty record. -/
theorem acc4InitClears : Obligations.Acc4InitClears := ⟨by decide, exec_acc4Init⟩

/-- Settles O36: only the conversion decides, and a converted operand is stepped. -/
theorem acc4StepOutcomes : Obligations.Acc4StepOutcomes := fun clk cin t _ =>
  ⟨decode_acc4Step_command clk cin t, fun _ => exec_acc4Step_of_parse_error, fun _ => exec_acc4Step_of_parse_ok⟩

end Sys2Proof.Machine
end

section
/-! SUPPORT. The numerically controlled oscillator: the tuning-word function (R171), the accumulation cycle (R175), what
each of its three operations answers (R172, R174, R176), and the three statements about them. -/

namespace Sys2Proof.Machine

/-! ## The commands with side operands -/

theorem decode_ncoInit_command (n : Nat) (fmclk : Rat) :
    decode ⟨0x4800, { Side.none with n := some n, fmclk := some fmclk }⟩ = .ok (.ncoInit n fmclk) :=
  decode_of_buildInstr (op := 18) rfl rfl rfl rfl

theorem decode_ncoSetfreq_command (fout : Rat) :
    decode ⟨0x4C00, { Side.none with fout := some fout }⟩ = .ok (.ncoSetfreq fout) :=
  decode_of_buildInstr (op := 19) rfl rfl rfl rfl

/-! ## The construction of the NCO -/

section
variable {n : Nat} {fmclk : Rat} {s : State}

theorem exec_ncoInit_of_failed (h : s.nco = .failed) :
    exec (.ncoInit n fmclk) s = .next (s.setFault .useAfterConstructionFailure) := by
  simp [exec, execNcoInit, h]

theorem exec_ncoInit_of_bad_clock (h : s.nco ≠ .failed) (hclk : ¬ 0 < fmclk) :
    exec (.ncoInit n fmclk) s = .next (s.setFault .badFrequency) := by
  simp [exec, execNcoInit, unlessFailed_of_ne h, not_lt.1 hclk, raiseFault_eq]

theorem exec_ncoInit_of_bad_width (h : s.nco ≠ .failed) (hclk : 0 < fmclk)
    (hn : constructionStatus s.cfg n = true) :
    exec (.ncoInit n fmclk) s = .next ((s.setNco .failed).record .ncoInit [.bit true]) := by
  simp [exec, execNcoInit, unlessFailed_of_ne h, hclk.not_ge, hn, complete_eq]

theorem exec_ncoInit_of_good_width (h : s.nco ≠ .failed) (hclk : 0 < fmclk)
    (hn : constructionStatus s.cfg n = false) :
    exec (.ncoInit n fmclk) s =
      .next ((s.setNco (.ready (NcoState.fresh n fmclk))).record .ncoInit [.bit false]) := by
  simp [exec, execNcoInit, unlessFailed_of_ne h, hclk.not_ge, hn, complete_eq]

end

/-- Settles O43: the slot decides first, then the sign of the clock, and the construction status then says which of the
two slots is written. -/
theorem ncoInitOutcomes : Obligations.NcoInitOutcomes := fun n fmclk _ =>
  ⟨decode_ncoInit_command n fmclk, exec_ncoInit_of_failed, exec_ncoInit_of_bad_clock,
    fun h hclk hn => exec_ncoInit_of_bad_width h hclk (constructionStatus_iff.2 hn),
    fun h hclk h1 hcap => exec_ncoInit_of_good_width h hclk (constructionStatus_eq_false h1 hcap)⟩

/-! ## The tuning word -/

section
variable {n k : Nat} {fmclk fout : Rat}

theorem clampBit_iff : clampBit n k = true ↔ 2 ^ n - 1 < k := decide_eq_true_iff

theorem clampBit_eq_false_iff : clampBit n k = false ↔ k ≤ 2 ^ n - 1 := by
  rw [← Bool.not_eq_true, clampBit_iff, Nat.not_lt]

/-- The quotient is the floor that R171 takes, where that floor is not negative. -/
theorem tuningQuotient_eq_of_floor (hk : (k : Int) = (2 ^ n * fout / fmclk).floor) :
    tuningQuotient n fmclk fout = k := by
  rw [tuningQuotient, Nat.cast_pow, Nat.cast_ofNat, ← hk, Int.toNat_natCast]

theorem tuningWord_of_gt (h : 2 ^ n - 1 < tuningQuotient n fmclk fout) :
    tuningWord n fmclk fout = (ones n, true) := by
  simp [tuningWord, clampBit_iff.2 h]

theorem tuningWord_of_le (h : tuningQuotient n fmclk fout ≤ 2 ^ n - 1) :
    tuningWord n fmclk fout = (vecOf n (tuningQuotient n fmclk fout), false) := by
  simp [tuningWord, clampBit_eq_false_iff.2 h]

@[simp] theorem length_tuningWord : (tuningWord n fmclk fout).1.length = n := by
  rcases Nat.lt_or_ge (2 ^ n - 1) (tuningQuotient n fmclk fout) with h | h
  · simp [tuningWord_of_gt h]
  · simp [tuningWord_of_le h]

/-- A quotient that is not clamped fits in `n` bits, so that the word has its value. -/
theorem val_tuningWord_of_le (h : tuningQuotient n fmclk fout ≤ 2 ^ n - 1) :
    val (tuningWord n fmclk fout).1 = tuningQuotient n fmclk fout := by
  have hlt : tuningQuotient n fmclk fout < 2 ^ n := Nat.lt_of_le_pred (Nat.two_pow_pos n) h
  rw [tuningWord_of_le h, val_vecOf, Nat.mod_eq_of_lt hlt]

end

/-! ## The frequency -/

section
variable {fout : Rat} {s : State} {x : NcoState}

theorem exec_ncoSetfreq_of_unconstructed (h : s.nco = .unconstructed) :
    exec (.ncoSetfreq fout) s = .next (s.setFault .notConstructed) := by
  simp [exec, execNcoSetfreq, h]

theorem exec_ncoSetfreq_of_failed (h : s.nco = .failed) :
    exec (.ncoSetfreq fout) s = .next (s.setFault .useAfterConstructionFailure) := by
  simp [exec, execNcoSetfreq, h]

theorem exec_ncoSetfreq_of_neg (hx : s.nco = .ready x) (hf : fout < 0) :
    exec (.ncoSetfreq fout) s = .next (s.setFault .badFrequency) := by
  simp [exec, execNcoSetfreq, hx, hf, raiseFault_eq]

theorem exec_ncoSetfreq_of_nonneg (hx : s.nco = .ready x) (hf : 0 ≤ fout) :
    exec (.ncoSetfreq fout) s =
      .next ((s.setNco (.ready { x with tw := (tuningWord x.n x.fmclk fout).1 })).record .ncoSetfreq
        [.text (text (tuningWord x.n x.fmclk fout).1), .bit (tuningWord x.n x.fmclk fout).2]) := by
  simp [exec, execNcoSetfreq, hx, hf.not_gt, complete_eq]

end

/-- Settles O44: the slot decides first, then the sign of the frequency, and the word stored and the clamp bit are
those of the tuning-word function, whose quotient is `k`. -/
theorem ncoSetfreqOutcomes : Obligations.NcoSetfreqOutcomes := by
  refine fun fout s => ⟨decode_ncoSetfreq_command fout, exec_ncoSetfreq_of_unconstructed, exec_ncoSetfreq_of_failed,
    fun x hx => ⟨exec_ncoSetfreq_of_neg hx, fun hf _ k hk => ?_⟩⟩
  obtain rfl := tuningQuotient_eq_of_floor hk
  refine ⟨(tuningWord x.n x.fmclk fout).1, (tuningWord x.n x.fmclk fout).2, exec_ncoSetfreq_of_nonneg hx hf,
    length_tuningWord, fun hgt => ?clamped, fun hle => ?fits⟩
  case clamped => exact (Prod.mk.inj (tuningWord_of_gt hgt)).symm
  case fits => exact ⟨congrArg Prod.snd (tuningWord_of_le hle), val_tuningWord_of_le hle⟩

/-! ## The accumulation cycle -/

/-- The two calls of R175: clock 1 with the tuning word, then clock 0 with zero data. -/
theorem ncoCycle_of_calls {x : NcoState} {acc1 acc2 : AccN} {s1 s2 : Bits} {co1 co2 : Bit}
    (h1 : accNNext x.acc x.tw true false = (acc1, s1, co1))
    (h2 : accNNext acc1 (zeros x.n) false false = (acc2, s2, co2)) :
    ncoCycle x = { x with acc := acc2, phase := s2 } := by
  simp only [ncoCycle, h1, h2]

section
variable {s : State} {x : NcoState}

theorem exec_ncoAdvance_of_unconstructed (h : s.nco = .unconstructed) :
    exec .ncoAdvance s = .next (s.setFault .notConstructed) := by
  simp [exec, execNcoAdvance, h]

theorem exec_ncoAdvance_of_failed (h : s.nco = .failed) :
    exec .ncoAdvance s = .next (s.setFault .useAfterConstructionFailure) := by
  simp [exec, execNcoAdvance, h]

theorem exec_ncoAdvance_of_ready (hx : s.nco = .ready x) :
    exec .ncoAdvance s =
      .next ((s.setNco (.ready (ncoCycle x))).record .ncoAdvance [.text (text (ncoCycle x).phase)]) := by
  simp [exec, execNcoAdvance, hx, complete_eq]

end

/-- Settles O46: the slot decides first, and a ready NCO is advanced by the cycle that the two calls make up. -/
theorem ncoAdvanceOutcomes : Obligations.NcoAdvanceOutcomes := by
  refine ⟨by decide, fun s => ⟨exec_ncoAdvance_of_unconstructed, exec_ncoAdvance_of_failed, ?ready⟩⟩
  case ready =>
    intro x acc1 acc2 s1 s2 co1 co2 hx h1 h2
    rw [exec_ncoAdvance_of_ready hx, ncoCycle_of_calls h1 h2]
    rfl

end Sys2Proof.Machine
end

section
/-! SUPPORT. The fault entry and the halted bench (R206, R207), the slots that hold no data (R201, R202), and the four
statements about them. -/

namespace Sys2Proof.Machine

/-! ## The fault entry -/

/-- Settles O11: the fetch finds the bench halted. -/
theorem haltedBenchHasNoStep : Obligations.HaltedBenchHasNoStep := fun _ => step_of_fault

/-- A step that leaves the fault register written is the fault entry on the state before it: the completing end of an
operation keeps the register as it was, and a step runs only where it is not written. -/
theorem step_fault_entry {s t : State} (h : step s = .next t) (ht : t.fault ≠ none) : ∃ code, t = s.setFault code := by
  obtain ⟨hf, hfault | ⟨_, _, outputs, s', -, -, -, same, rfl⟩⟩ := step_ends h
  · exact hfault
  · exact absurd (same.fault.trans hf) ht

/-- Settles O10: the step is the fault entry, and the register it leaves written halts the bench. -/
theorem faultEntryIsPrecise : Obligations.FaultEntryIsPrecise := fun _ _ h ht =>
  ⟨step_fault_entry h ht, step_of_fault ht, fun ⟨hf, _⟩ => ht hf⟩

/-! ## The slots that hold no data -/

section
variable {i : Instr} {s : State}

theorem exec_of_accn_failed (hi : entityOf i = .accn) (h : s.accn = .failed) :
    exec i s = .next (s.setFault .useAfterConstructionFailure) := by
  cases i with
  | accnInit n => exact exec_accnInit_of_failed h
  | accnStep clk cin vec => exact exec_accnStep_of_failed h
  | _ => cases hi

theorem exec_of_nco_failed (hi : entityOf i = .nco) (h : s.nco = .failed) :
    exec i s = .next (s.setFault .useAfterConstructionFailure) := by
  cases i with
  | ncoInit n fmclk => exact exec_ncoInit_of_failed h
  | ncoSetfreq fout => exact exec_ncoSetfreq_of_failed h
  | ncoAdvance => exact exec_ncoAdvance_of_failed h
  | _ => cases hi

end

/-- Settles O41: on either slot, every operation of its entity meets the slot before anything else. -/
theorem failedSlotAdmitsNothing : Obligations.FailedSlotAdmitsNothing := by
  rintro i s (⟨hi, h⟩ | ⟨hi, h⟩)
  · exact exec_of_accn_failed hi h
  · exact exec_of_nco_failed hi h

theorem constructionStatus_of_within {cfg : Config} {n : Nat} (h1 : 1 ≤ n) (hcap : exceedsCapacity cfg n = false) :
    constructionStatus cfg n = false := by
  simp [constructionStatus, hcap, Nat.ne_of_gt h1]

/-- Settles O42: the steps meet the slot first; an initialize passes an UNCONSTRUCTED slot, and a width within the
capacity then has status 0. -/
theorem unconstructedSlot : Obligations.UnconstructedSlot := by
  refine fun s => ⟨fun h => ⟨fun _ _ _ => exec_accnStep_of_unconstructed h, fun n h1 hcap => ?accn⟩,
    fun h => ⟨fun _ => exec_ncoSetfreq_of_unconstructed h, exec_ncoAdvance_of_unconstructed h,
      fun n fmclk hclk h1 hcap => ?nco⟩⟩
  case accn =>
    have hinit := exec_accnInit_of_good_width (by simp [h]) (constructionStatus_of_within h1 hcap)
    exact ⟨_, AccN.zero n, hinit, rfl, rfl⟩
  case nco =>
    have hinit := exec_ncoInit_of_good_width (by simp [h]) hclk (constructionStatus_of_within h1 hcap)
    exact ⟨_, NcoState.fresh n fmclk, hinit, rfl, rfl⟩

end Sys2Proof.Machine
end

section
/-! SUPPORT. The encoder against the decoder (R72, R75): the fields of an encoded word, the part of a command that its
opcode uses, and the statements about encoding and about the placed command. -/

namespace Sys2Proof

/-! ## The fields of an encoded word -/

section
variable {op : Nat} (hop : op < 64) (b0 b1 b2 : Bit)
include hop

theorem commandWord_toNat :
    (commandWord op b0 b1 b2).toNat = op * 1024 + b2.toNat * 4 + b1.toNat * 2 + b0.toNat := by
  have h0 := b0.toNat_le
  have h1 := b1.toNat_le
  have h2 := b2.toNat_le
  rw [commandWord, BitVec.toNat_ofNat, Nat.mod_eq_of_lt (by omega)]

theorem commandWord_op : (commandWord op b0 b1 b2).op = op := by
  have h0 := b0.toNat_le
  have h1 := b1.toNat_le
  have h2 := b2.toNat_le
  rw [Word.op, commandWord_toNat hop]
  omega

end

theorem Word.toNat_scalar (w : Word) (k : Nat) : (w.scalar k).toNat = w.toNat / 2 ^ k % 2 := by
  rw [Word.scalar, ← BitVec.testBit_toNat, Nat.toNat_testBit]

theorem Word.scalar_eq_iff {w : Word} {k : Nat} {b : Bit} : w.scalar k = b ↔ w.toNat / 2 ^ k % 2 = b.toNat := by
  rw [← Word.toNat_scalar]
  cases b <;> simp

theorem commandWord_scalars {op : Nat} (hop : op < 64) (b0 b1 b2 : Bit) :
    (commandWord op b0 b1 b2).scalar 0 = b0 ∧ (commandWord op b0 b1 b2).scalar 1 = b1
      ∧ (commandWord op b0 b1 b2).scalar 2 = b2 := by
  have h0 := b0.toNat_le
  have h1 := b1.toNat_le
  have h2 := b2.toNat_le
  simp only [Word.scalar_eq_iff, commandWord_toNat hop]
  omega

/-! ## Decoding an encoded operation -/

theorem encode_wellFormed (i : Instr) : (encode i).wellFormed = true := by
  cases i with
  | not a => exact Laws.EncodeWellFormed.not a
  | and a b => exact Laws.EncodeWellFormed.and a b
  | or a b => exact Laws.EncodeWellFormed.or a b
  | nor a b => exact Laws.EncodeWellFormed.nor a b
  | nand a b => exact Laws.EncodeWellFormed.nand a b
  | xor a b => exact Laws.EncodeWellFormed.xor a b
  | fa a b cin => exact Laws.EncodeWellFormed.fa a b cin
  | srInit => exact Laws.EncodeWellFormed.srInit
  | srStep set rst => exact Laws.EncodeWellFormed.srStep set rst
  | dffInit => exact Laws.EncodeWellFormed.dffInit
  | dffStep clk d => exact Laws.EncodeWellFormed.dffStep clk d
  | acc1Init => exact Laws.EncodeWellFormed.acc1Init
  | acc1Step y clk cin => exact Laws.EncodeWellFormed.acc1Step y clk cin
  | accnInit n => exact Laws.EncodeWellFormed.accnInit n
  | accnStep clk cin vec => exact Laws.EncodeWellFormed.accnStep clk cin vec
  | acc4Init => exact Laws.EncodeWellFormed.acc4Init
  | acc4Step clk cin vec => exact Laws.EncodeWellFormed.acc4Step clk cin vec
  | ncoInit n fmclk => exact Laws.EncodeWellFormed.ncoInit n fmclk
  | ncoSetfreq fout => exact Laws.EncodeWellFormed.ncoSetfreq fout
  | ncoAdvance => exact Laws.EncodeWellFormed.ncoAdvance

/-- The opcode of an encoded operation selects its own builder, which reads back every scalar and side operand. -/
theorem buildInstr_encode (i : Instr) : buildInstr (encode i).word.op (encode i).word (encode i).side = some i := by
  cases i <;> simp [encode, plainCommand, commandWord_op, commandWord_scalars, buildInstr]

theorem Command.wellFormed_iff {c : Command} :
    c.wellFormed = true ↔ c.legal = true ∧ c.sidesComplete = true := by
  rw [Command.wellFormed, Bool.and_eq_true]

theorem decode_encode (i : Instr) : decode (encode i) = .ok i := by
  rw [decode_of_legal (Command.wellFormed_iff.1 (encode_wellFormed i)).1, buildInstr_encode, Option.elim_some]

/-! ## Encoding a decoded operation -/

/-- The command with an opcode that has of a word and of side operands only what that opcode uses: its scalar bits
(R72) and its side operands (R73). -/
def usedPart (op : Nat) (w : Word) (x : Side) : Command :=
  { word := commandWord op (decide (0 < scalarsUsed op) && w.scalar 0) (decide (1 < scalarsUsed op) && w.scalar 1)
      (decide (2 < scalarsUsed op) && w.scalar 2)
    side :=
      { vec := if (sidesTaken op).vec then x.vec else none
        n := if (sidesTaken op).n then x.n else none
        fmclk := if (sidesTaken op).fmclk then x.fmclk else none
        fout := if (sidesTaken op).fout then x.fout else none } }

theorem encode_of_buildInstr {op : Nat} {w : Word} {x : Side} {i : Instr} (h : buildInstr op w x = some i) :
    encode i = usedPart op w x := by
  unfold buildInstr at h
  split at h
  case h_14 =>
    obtain ⟨n, hn, rfl⟩ := Option.map_eq_some_iff.1 h
    simp [encode, usedPart, hn, sidesTaken, scalarsUsed, Side.none]
  case h_15 | h_17 =>
    obtain ⟨vec, hvec, rfl⟩ := Option.map_eq_some_iff.1 h
    simp [encode, usedPart, hvec, sidesTaken, scalarsUsed, Side.none]
  case h_18 =>
    obtain ⟨n, hn, h⟩ := Option.bind_eq_some_iff.1 h
    obtain ⟨fmclk, hfmclk, rfl⟩ := Option.map_eq_some_iff.1 h
    simp [encode, usedPart, hn, hfmclk, sidesTaken, scalarsUsed, Side.none]
  case h_19 =>
    obtain ⟨fout, hfout, rfl⟩ := Option.map_eq_some_iff.1 h
    simp [encode, usedPart, hfout, sidesTaken, scalarsUsed, Side.none]
  case h_21 => cases h
  all_goals
    obtain rfl := Option.some.inj h
    rfl

/-- A word with clear reserved bits and no scalar bit from `k` up is its opcode and its scalars below `k`. -/
theorem Word.eq_commandWord {w : Word} {k : Nat} (hk : k ≤ 3) (hr : w.rsv = 0) (hs : w.sc < 2 ^ k) :
    commandWord w.op (decide (0 < k) && w.scalar 0) (decide (1 < k) && w.scalar 1) (decide (2 < k) && w.scalar 2)
      = w := by
  refine BitVec.eq_of_toNat_eq ?_
  rw [commandWord_toNat (Nat.lt_succ_of_le w.op_le)]
  unfold Word.rsv at hr
  unfold Word.sc at hs
  unfold Word.op
  interval_cases k <;> simp [Word.toNat_scalar] <;> omega

/-- A side operand that is present only where it is taken is kept by keeping what is taken. -/
theorem ite_none_eq_of_within {α : Type} {x : Option α} {taken : Bool} (h : (!x.isSome || taken) = true) :
    (if taken then x else none) = x := by
  cases taken <;> cases x <;> simp at h ⊢

theorem usedPart_of_legal {c : Command} (h : c.legal = true) : usedPart c.word.op c.word c.side = c := by
  obtain ⟨-, hword, hsides⟩ := Command.legal_iff.1 h
  obtain ⟨hr, hs⟩ : c.word.rsv = 0 ∧ c.word.sc < 2 ^ scalarsUsed c.word.op := by
    simpa [Word.reservedClear, Word.scalarsClear] using hword
  simp only [Command.sidesExpected, SideSet.within, Side.present, Bool.and_eq_true] at hsides
  obtain ⟨⟨⟨hvec, hn⟩, hfmclk⟩, hfout⟩ := hsides
  rw [usedPart, Word.eq_commandWord (scalarsUsed_le c.word.op) hr hs, ite_none_eq_of_within hvec,
    ite_none_eq_of_within hn, ite_none_eq_of_within hfmclk, ite_none_eq_of_within hfout]

/-- A command decodes to an operation exactly when it is legal and its opcode builds that operation. -/
theorem decode_eq_ok_iff {c : Command} {i : Instr} :
    decode c = .ok i ↔ c.legal = true ∧ buildInstr c.word.op c.word c.side = some i := by
  cases hlegal : c.legal with
  | false => simp [decode_of_not_legal hlegal]
  | true => cases hi : buildInstr c.word.op c.word c.side <;> simp [decode_of_legal hlegal, hi]

theorem decode_eq_missing_iff {c : Command} :
    decode c = .error .missingOperand ↔ c.legal = true ∧ buildInstr c.word.op c.word c.side = none := by
  cases hlegal : c.legal with
  | false => simp [decode_of_not_legal hlegal]
  | true => cases hi : buildInstr c.word.op c.word c.side <;> simp [decode_of_legal hlegal, hi]

/-! ## The side operands that a builder needs -/

/-- An assigned opcode builds an operation exactly when every side operand that it takes is present. -/
theorem isSome_buildInstr {op : Nat} (h1 : 1 ≤ op) (h20 : op ≤ 20) (w : Word) (x : Side) :
    (buildInstr op w x).isSome = (sidesTaken op).within x.present := by
  obtain ⟨vec, n, fmclk, fout⟩ := x
  unfold buildInstr
  split
  case h_14 => cases n <;> rfl
  case h_15 | h_17 => cases vec <;> rfl
  case h_18 => cases n <;> cases fmclk <;> rfl
  case h_19 => cases fout <;> rfl
  case h_21 => interval_cases op <;> contradiction
  all_goals rfl

theorem isSome_buildInstr_of_legal {c : Command} (h : c.legal = true) :
    (buildInstr c.word.op c.word c.side).isSome = c.sidesComplete := by
  obtain ⟨hop, -, -⟩ := Command.legal_iff.1 h
  obtain ⟨h1, h20⟩ := Word.opcodeAssigned_iff.1 hop
  exact isSome_buildInstr h1 h20 c.word c.side

theorem exists_decode_iff {c : Command} : (∃ i, decode c = .ok i) ↔ c.wellFormed = true := by
  simp only [decode_eq_ok_iff, exists_and_left, ← Option.isSome_iff_exists, Command.wellFormed_iff]
  exact and_congr_right fun h => by rw [isSome_buildInstr_of_legal h]

theorem decode_eq_missing_iff_incomplete {c : Command} :
    decode c = .error .missingOperand ↔ c.legal = true ∧ c.sidesComplete = false := by
  rw [decode_eq_missing_iff, ← Option.not_isSome_iff_eq_none, ← Bool.not_eq_true c.sidesComplete]
  exact and_congr_right fun h => by rw [isSome_buildInstr_of_legal h]

end Sys2Proof

namespace Sys2Proof.Machine

/-- Settles O2: an encoded operation is legal, and its opcode's builder reads the fields that the encoder wrote. -/
theorem decodeOfEncode : Obligations.DecodeOfEncode := decode_encode

/-- Settles O3: the operation encodes to the part of the command that its opcode uses, and a legal command has no other
part. -/
theorem encodeOfDecode : Obligations.EncodeOfDecode := fun _ _ h => by
  obtain ⟨hlegal, hbuild⟩ := decode_eq_ok_iff.1 h
  exact (encode_of_buildInstr hbuild).trans (usedPart_of_legal hlegal)

/-- Settles O5: a legal command builds its operation exactly when its side operands are complete, and the step on any
decoding error is the fault entry. -/
theorem missingOperandsFault : Obligations.MissingOperandsFault := fun _ =>
  ⟨exists_decode_iff, decode_eq_missing_iff_incomplete, fun _ hf hp hd => step_of_decode_error hf hp hd⟩

/-- Settles O1: each word and its side operands are run through the decoder. -/
theorem sampleWordsDecode : Obligations.SampleWordsDecode := by
  unfold Obligations.SampleWordsDecode
  decide

/-- Settles O6: the fetch finds the command, and a decoded command is run with nothing around it. -/
theorem stepRunsDecodedInstruction : Obligations.StepRunsDecodedInstruction := fun _ _ _ => step_of_decode_ok

/-! ## The placed command -/

theorem decodeTableWord_eq_some {nbits w : Nat} {i : Instr} (h : decodeTableWord nbits w = some i) :
    decode (tableCommand nbits w) = .ok i := by
  unfold decodeTableWord at h
  split_ifs at h
  cases hd : decode (tableCommand nbits w) with
  | ok j => simpa [hd] using h
  | error e => simp [hd] at h

/-- Settles O7: the placed command is the one that the step fetches, and the bench with it placed is not halted. -/
theorem placedWordRunsNext : Obligations.PlacedWordRunsNext := fun s w _ h => by
  obtain ⟨hf, hp⟩ := fetch_command.1 (fetch_withCommand s (tableCommand 16 w))
  exact step_of_decode_ok hf hp (decodeTableWord_eq_some h)

end Sys2Proof.Machine
end

section
/-! SUPPORT. The gates (R101 to R106): their words and what they output, and the two statements about them. -/

namespace Sys2Proof.Machine

/-! ## The words of the gates -/

theorem plainCommand_eq_word (op : Nat) (a b : Bit) :
    plainCommand op a b false = ⟨BitVec.ofNat 16 (op * 1024 + a.toNat + 2 * b.toNat), Side.none⟩ := by
  rw [plainCommand, commandWord, Bool.toNat_false,
    show op * 1024 + 0 * 4 + b.toNat * 2 + a.toNat = op * 1024 + a.toNat + 2 * b.toNat by omega]

/-- The word that the opcode map gives an operation with two scalars and no side operand decodes to it. -/
theorem decode_word_of_encode {i : Instr} {op : Nat} {a b : Bit} (h : encode i = plainCommand op a b false) :
    decode ⟨BitVec.ofNat 16 (op * 1024 + a.toNat + 2 * b.toNat), Side.none⟩ = .ok i := by
  rw [← plainCommand_eq_word, ← h, decode_encode]

/-! ## The statements -/

/-- Settles O19: the words are those of the encoder, and each gate is a record of its function's value. -/
theorem gateOperations : Obligations.GateOperations := fun a b _ =>
  ⟨⟨decode_word_of_encode (i := .not a) (op := 1) (b := false) rfl, rfl⟩,
    ⟨decode_word_of_encode (i := .and a b) (op := 2) rfl, rfl⟩,
    ⟨decode_word_of_encode (i := .or a b) (op := 3) rfl, rfl⟩,
    ⟨decode_word_of_encode (i := .nor a b) (op := 4) rfl, rfl⟩,
    ⟨decode_word_of_encode (i := .nand a b) (op := 5) rfl, rfl⟩⟩

theorem exec_xor (a b : Bit) (s : State) : exec (.xor a b) s = .next (s.record .xor [.bit (xorGate a b)]) := rfl

/-- Settles O20: the composition is the definition of the function, whose value is the exclusive or. -/
theorem xorFromFourNands : Obligations.XorFromFourNands := by
  refine fun a b s => ⟨rfl, decode_word_of_encode (i := .xor a b) (op := 6) rfl, ?_⟩
  rw [exec_xor, xorGate_eq, ← Bool.bne_eq_xor]
  rfl

end Sys2Proof.Machine
end

section
/-! SUPPORT. What every operation reads and writes of the entities (R20, R74), said once, and the three statements
that follow from it. -/

namespace Sys2Proof.Machine

/-! ## What an operation reads -/

/-- Two benches agree on what an operation on the entity `e` may read: that entity and the capacity. -/
structure State.AgreeOn (e : Entity) (s s' : State) : Prop where
  cfg : s'.cfg = s.cfg
  sr : e = .sr → s'.sr = s.sr
  dff : e = .dff → s'.dff = s.dff
  acc1 : e = .acc1 → s'.acc1 = s.acc1
  accn : e = .accn → s'.accn = s.accn
  acc4 : e = .acc4 → s'.acc4 = s.acc4
  nco : e = .nco → s'.nco = s.nco

namespace State.AgreeOn
variable {e : Entity} {s s' : State}

theorem refl (e : Entity) (s : State) : s.AgreeOn e s :=
  ⟨rfl, fun _ => rfl, fun _ => rfl, fun _ => rfl, fun _ => rfl, fun _ => rfl, fun _ => rfl⟩

theorem setFault (h : s.AgreeOn e s') (code : FaultCode) : s.AgreeOn e (s'.setFault code) := { h with }

theorem record (h : s.AgreeOn e s') (m : Mnemonic) (outputs : List OutVal) : s.AgreeOn e (s'.record m outputs) :=
  { h with }

end State.AgreeOn

/-! ## What an operation writes -/

/-- The write that an operation makes before it completes on the bench `s`: none for an operation without an entity,
and otherwise one of its own entity. -/
inductive Writes (s : State) : Instr → (State → State) → Prop where
  | pure {i : Instr} (h : entityOf i = .pure) : Writes s i id
  | sr {i : Instr} (h : entityOf i = .sr) (x : SrState) : Writes s i (·.setSr x)
  | dffInit : Writes s .dffInit (·.setDff DffState.zero)
  | dffStep (clk d : Bit) : Writes s (.dffStep clk d) (·.setDff (dffNext s.dff clk d))
  | acc1Init : Writes s .acc1Init (·.setAcc1 Acc1Cell.zero)
  | acc1Step (y clk cin : Bit) : Writes s (.acc1Step y clk cin) (·.setAcc1 (acc1Next s.acc1 y clk cin).1)
  | accnFailed (n : Nat) : Writes s (.accnInit n) (·.setAccn .failed)
  | accnBuilt {n : Nat} (hn : constructionStatus s.cfg n = false) :
      Writes s (.accnInit n) (·.setAccn (.ready (AccN.zero n)))
  | accnStep (clk cin : Bit) (t : Digits) {acc : AccN} (hacc : s.accn = .ready acc) (y : Bits) :
      Writes s (.accnStep clk cin t) (·.setAccn (.ready (accNNext acc y clk cin).1))
  | acc4Init : Writes s .acc4Init (·.setAcc4 (AccN.zero 4))
  | acc4Step (clk cin : Bit) (t : Digits) (y : Bits) :
      Writes s (.acc4Step clk cin t) (·.setAcc4 (accNNext s.acc4 y clk cin).1)
  | ncoFailed (n : Nat) (fmclk : Rat) : Writes s (.ncoInit n fmclk) (·.setNco .failed)
  | ncoBuilt {n : Nat} {fmclk : Rat} (hclk : 0 < fmclk) (hn : constructionStatus s.cfg n = false) :
      Writes s (.ncoInit n fmclk) (·.setNco (.ready (NcoState.fresh n fmclk)))
  | ncoSetfreq (fout : Rat) {x : NcoState} (hx : s.nco = .ready x) :
      Writes s (.ncoSetfreq fout) (·.setNco (.ready { x with tw := (tuningWord x.n x.fmclk fout).1 }))
  | ncoAdvance {x : NcoState} (hx : s.nco = .ready x) : Writes s .ncoAdvance (·.setNco (.ready (ncoCycle x)))

/-- On every bench that agrees with `s` on what the operation may read, the operation raises one and the same fault, or
makes one and the same write and appends one and the same record. -/
def AnswersAlike (i : Instr) (s : State) : Prop :=
  (∃ code, ∀ s', s.AgreeOn (entityOf i) s' → exec i s' = .next (s'.setFault code))
    ∨ ∃ write outputs, Writes s i write
        ∧ ∀ s', s.AgreeOn (entityOf i) s' → exec i s' = .next ((write s').record (mnemonicOf i) outputs)

theorem accnInit_answersAlike (n : Nat) (s : State) : AnswersAlike (.accnInit n) s := by
  by_cases hslot : s.accn = .failed
  · exact .inl ⟨_, fun s' h => exec_accnInit_of_failed ((h.accn rfl).trans hslot)⟩
  · have hne : ∀ s', s.AgreeOn .accn s' → s'.accn ≠ .failed := fun s' h => h.accn rfl ▸ hslot
    cases hn : constructionStatus s.cfg n with
    | true =>
      exact .inr ⟨_, _, .accnFailed n, fun s' h => exec_accnInit_of_bad_width (hne s' h) (h.cfg ▸ hn)⟩
    | false =>
      exact .inr ⟨_, _, .accnBuilt hn, fun s' h => exec_accnInit_of_good_width (hne s' h) (h.cfg ▸ hn)⟩

theorem accnStep_answersAlike (clk cin : Bit) (t : Digits) (s : State) : AnswersAlike (.accnStep clk cin t) s := by
  cases hslot : s.accn with
  | unconstructed => exact .inl ⟨_, fun s' h => exec_accnStep_of_unconstructed ((h.accn rfl).trans hslot)⟩
  | failed => exact .inl ⟨_, fun s' h => exec_accnStep_of_failed ((h.accn rfl).trans hslot)⟩
  | ready acc =>
    cases hparse : parse acc.n t with
    | error code => exact .inl ⟨_, fun s' h => exec_accnStep_of_parse_error ((h.accn rfl).trans hslot) hparse⟩
    | ok y =>
      exact .inr ⟨_, _, .accnStep clk cin t hslot y,
        fun s' h => exec_accnStep_of_parse_ok ((h.accn rfl).trans hslot) hparse⟩

theorem acc4Step_answersAlike (clk cin : Bit) (t : Digits) (s : State) : AnswersAlike (.acc4Step clk cin t) s := by
  cases hparse : parse 4 t with
  | error code => exact .inl ⟨_, fun _ _ => exec_acc4Step_of_parse_error hparse⟩
  | ok y =>
    exact .inr ⟨_, _, .acc4Step clk cin t y, fun s' h => h.acc4 rfl ▸ exec_acc4Step_of_parse_ok hparse⟩

theorem ncoInit_answersAlike (n : Nat) (fmclk : Rat) (s : State) : AnswersAlike (.ncoInit n fmclk) s := by
  by_cases hslot : s.nco = .failed
  · exact .inl ⟨_, fun s' h => exec_ncoInit_of_failed ((h.nco rfl).trans hslot)⟩
  · have hne : ∀ s', s.AgreeOn .nco s' → s'.nco ≠ .failed := fun s' h => h.nco rfl ▸ hslot
    by_cases hclk : 0 < fmclk
    · cases hn : constructionStatus s.cfg n with
      | true =>
        exact .inr ⟨_, _, .ncoFailed n fmclk, fun s' h => exec_ncoInit_of_bad_width (hne s' h) hclk (h.cfg ▸ hn)⟩
      | false =>
        exact .inr ⟨_, _, .ncoBuilt hclk hn, fun s' h => exec_ncoInit_of_good_width (hne s' h) hclk (h.cfg ▸ hn)⟩
    · exact .inl ⟨_, fun s' h => exec_ncoInit_of_bad_clock (hne s' h) hclk⟩

theorem ncoSetfreq_answersAlike (fout : Rat) (s : State) : AnswersAlike (.ncoSetfreq fout) s := by
  cases hslot : s.nco with
  | unconstructed => exact .inl ⟨_, fun s' h => exec_ncoSetfreq_of_unconstructed ((h.nco rfl).trans hslot)⟩
  | failed => exact .inl ⟨_, fun s' h => exec_ncoSetfreq_of_failed ((h.nco rfl).trans hslot)⟩
  | ready x =>
    rcases lt_or_ge fout 0 with hf | hf
    · exact .inl ⟨_, fun s' h => exec_ncoSetfreq_of_neg ((h.nco rfl).trans hslot) hf⟩
    · exact .inr ⟨_, _, .ncoSetfreq fout hslot, fun s' h => exec_ncoSetfreq_of_nonneg ((h.nco rfl).trans hslot) hf⟩

theorem ncoAdvance_answersAlike (s : State) : AnswersAlike .ncoAdvance s := by
  cases hslot : s.nco with
  | unconstructed => exact .inl ⟨_, fun s' h => exec_ncoAdvance_of_unconstructed ((h.nco rfl).trans hslot)⟩
  | failed => exact .inl ⟨_, fun s' h => exec_ncoAdvance_of_failed ((h.nco rfl).trans hslot)⟩
  | ready x => exact .inr ⟨_, _, .ncoAdvance hslot, fun s' h => exec_ncoAdvance_of_ready ((h.nco rfl).trans hslot)⟩

theorem exec_answersAlike (i : Instr) (s : State) : AnswersAlike i s := by
  cases i with
  | not | and | or | nor | nand | xor | fa => exact .inr ⟨_, _, .pure rfl, fun _ _ => rfl⟩
  | srInit => exact .inr ⟨_, _, .sr rfl _, fun _ _ => rfl⟩
  | srStep set rst =>
    exact .inr ⟨_, _, .sr rfl { q := srNext s.sr.q set rst }, fun s' h => h.sr rfl ▸ exec_srStep set rst s'⟩
  | dffInit => exact .inr ⟨_, _, .dffInit, fun _ _ => rfl⟩
  | dffStep clk d =>
    exact .inr ⟨_, _, .dffStep clk d, fun s' h => h.dff rfl ▸ exec_dffStep clk d s'⟩
  | acc1Init => exact .inr ⟨_, _, .acc1Init, fun _ _ => rfl⟩
  | acc1Step y clk cin =>
    exact .inr ⟨_, _, .acc1Step y clk cin, fun s' h => h.acc1 rfl ▸ exec_acc1Step y clk cin s'⟩
  | accnInit n => exact accnInit_answersAlike n s
  | accnStep clk cin t => exact accnStep_answersAlike clk cin t s
  | acc4Init => exact .inr ⟨_, _, .acc4Init, fun _ _ => rfl⟩
  | acc4Step clk cin t => exact acc4Step_answersAlike clk cin t s
  | ncoInit n fmclk => exact ncoInit_answersAlike n fmclk s
  | ncoSetfreq fout => exact ncoSetfreq_answersAlike fout s
  | ncoAdvance => exact ncoAdvance_answersAlike s

/-- An operation raises a fault on the bench as it was, or completes after its own write. -/
theorem exec_next_writes {i : Instr} {s t : State} (h : exec i s = .next t) :
    (∃ code, t = s.setFault code)
      ∨ ∃ write outputs, Writes s i write ∧ t = (write s).record (mnemonicOf i) outputs := by
  rcases exec_answersAlike i s with ⟨code, hfault⟩ | ⟨write, outputs, hw, hdone⟩
  · rw [hfault s (.refl _ s)] at h
    exact .inl ⟨code, (Host.Outcome.next.inj h).symm⟩
  · rw [hdone s (.refl _ s)] at h
    exact .inr ⟨write, outputs, hw, (Host.Outcome.next.inj h).symm⟩

/-! ## Writes of different entities -/

/-- A write of the entity `e` and of nothing else; without an entity, no write. -/
inductive OwnWrite : Entity → (State → State) → Prop where
  | pure : OwnWrite .pure id
  | sr (x : SrState) : OwnWrite .sr (·.setSr x)
  | dff (x : DffState) : OwnWrite .dff (·.setDff x)
  | acc1 (x : Acc1Cell) : OwnWrite .acc1 (·.setAcc1 x)
  | accn (x : Slot AccN) : OwnWrite .accn (·.setAccn x)
  | acc4 (x : AccN) : OwnWrite .acc4 (·.setAcc4 x)
  | nco (x : Slot NcoState) : OwnWrite .nco (·.setNco x)

theorem Writes.ownWrite {s : State} {i : Instr} {write : State → State} (h : Writes s i write) :
    OwnWrite (entityOf i) write := by
  cases h with
  | pure h => exact h ▸ .pure
  | sr h x => exact h ▸ .sr x
  | dffInit | dffStep => exact .dff _
  | acc1Init | acc1Step => exact .acc1 _
  | accnFailed | accnBuilt | accnStep => exact .accn _
  | acc4Init | acc4Step => exact .acc4 _
  | ncoFailed | ncoBuilt | ncoSetfreq | ncoAdvance => exact .nco _

namespace OwnWrite
variable {e e' : Entity} {f g : State → State}

theorem setFault (h : OwnWrite e f) (s : State) (code : FaultCode) : (f s).setFault code = f (s.setFault code) := by
  cases h <;> rfl

theorem record (h : OwnWrite e f) (s : State) (m : Mnemonic) (outputs : List OutVal) :
    (f s).record m outputs = f (s.record m outputs) := by
  cases h <;> rfl

theorem agreeOn (h : OwnWrite e f) (hne : e ≠ e') (s : State) : s.AgreeOn e' (f s) := by
  cases h with
  | pure => exact .refl e' s
  | sr x => exact { State.AgreeOn.refl e' s with sr := fun h => absurd h.symm hne }
  | dff x => exact { State.AgreeOn.refl e' s with dff := fun h => absurd h.symm hne }
  | acc1 x => exact { State.AgreeOn.refl e' s with acc1 := fun h => absurd h.symm hne }
  | accn x => exact { State.AgreeOn.refl e' s with accn := fun h => absurd h.symm hne }
  | acc4 x => exact { State.AgreeOn.refl e' s with acc4 := fun h => absurd h.symm hne }
  | nco x => exact { State.AgreeOn.refl e' s with nco := fun h => absurd h.symm hne }

theorem comm (h : OwnWrite e f) (h' : OwnWrite e' g) (hne : e ≠ e') (s : State) : f (g s) = g (f s) := by
  cases h with
  | pure => rfl
  | sr x => cases h' with
    | sr => exact absurd rfl hne
    | _ => rfl
  | dff x => cases h' with
    | dff => exact absurd rfl hne
    | _ => rfl
  | acc1 x => cases h' with
    | acc1 => exact absurd rfl hne
    | _ => rfl
  | accn x => cases h' with
    | accn => exact absurd rfl hne
    | _ => rfl
  | acc4 x => cases h' with
    | acc4 => exact absurd rfl hne
    | _ => rfl
  | nco x => cases h' with
    | nco => exact absurd rfl hne
    | _ => rfl

end OwnWrite

/-! ## The other entities -/

/-- Both ends of an operation leave every entity but its own, and the capacity. -/
theorem exec_agreeOn {i : Instr} {s t : State} (h : exec i s = .next t) {e : Entity} (hne : entityOf i ≠ e) :
    s.AgreeOn e t := by
  obtain ⟨code, rfl⟩ | ⟨write, outputs, hw, rfl⟩ := exec_next_writes h
  · exact (State.AgreeOn.refl e s).setFault code
  · exact (hw.ownWrite.agreeOn hne s).record (mnemonicOf i) outputs

/-- An operation answers alike before and after a write of another entity. -/
theorem exec_after_write {i : Instr} {s t : State} (h : exec i s = .next t) {e : Entity} {f : State → State}
    (hf : OwnWrite e f) (hne : entityOf i ≠ e) : exec i (f s) = .next (f t) := by
  have hagree := hf.agreeOn hne.symm s
  rcases exec_answersAlike i s with ⟨code, hfault⟩ | ⟨write, outputs, hw, hdone⟩
  · rw [hfault s (.refl _ s)] at h
    obtain rfl := Host.Outcome.next.inj h
    rw [hfault _ hagree, hf.setFault]
  · rw [hdone s (.refl _ s)] at h
    obtain rfl := Host.Outcome.next.inj h
    rw [hdone _ hagree, hw.ownWrite.comm hf hne, hf.record]

/-- Settles O16: an operation makes no write but its own, and neither end writes an entity. -/
theorem onlyOwnEntityWritten : Obligations.OnlyOwnEntityWritten := fun _ _ _ h =>
  ⟨fun hne => (exec_agreeOn h hne).sr rfl, fun hne => (exec_agreeOn h hne).dff rfl,
    fun hne => (exec_agreeOn h hne).acc1 rfl, fun hne => (exec_agreeOn h hne).accn rfl,
    fun hne => (exec_agreeOn h hne).acc4 rfl, fun hne => (exec_agreeOn h hne).nco rfl⟩

/-- Settles O17: replacing another entity is a write of that entity, which an operation does not see and which commutes
with its own. -/
theorem onlyOwnEntityRead : Obligations.OnlyOwnEntityRead := fun _ _ _ h =>
  ⟨fun hne x => exec_after_write h (.sr x) hne, fun hne x => exec_after_write h (.dff x) hne,
    fun hne x => exec_after_write h (.acc1 x) hne, fun hne x => exec_after_write h (.accn x) hne,
    fun hne x => exec_after_write h (.acc4 x) hne, fun hne x => exec_after_write h (.nco x) hne⟩

/-! ## The structural parameters -/

namespace Writes
variable {s : State} {i : Instr} {write : State → State}

theorem accn_width (h : Writes s i write) (hne : mnemonicOf i ≠ .accnInit) {acc : AccN} (hacc : s.accn = .ready acc) :
    ∃ acc', (write s).accn = .ready acc' ∧ acc'.n = acc.n := by
  cases h with
  | accnFailed | accnBuilt => exact absurd rfl hne
  | accnStep clk cin t hslot y =>
    obtain rfl := Slot.ready.inj (hacc.symm.trans hslot)
    exact ⟨_, rfl, accNNext_n acc y clk cin⟩
  | _ => exact ⟨acc, hacc, rfl⟩

theorem acc4_width (h : Writes s i write) (hn : s.acc4.n = 4) : (write s).acc4.n = 4 := by
  cases h with
  | acc4Init => rfl
  | _ => exact hn

theorem nco_parameters (h : Writes s i write) (hne : mnemonicOf i ≠ .ncoInit) {x : NcoState}
    (hx : s.nco = .ready x) :
    ∃ x', (write s).nco = .ready x' ∧ x'.n = x.n ∧ x'.fmclk = x.fmclk
      ∧ (mnemonicOf i ≠ .ncoSetfreq → x'.tw = x.tw) := by
  cases h with
  | ncoFailed | ncoBuilt => exact absurd rfl hne
  | ncoSetfreq fout hslot =>
    obtain rfl := Slot.ready.inj (hx.symm.trans hslot)
    exact ⟨_, rfl, rfl, rfl, fun hset => absurd rfl hset⟩
  | ncoAdvance hslot =>
    obtain rfl := Slot.ready.inj (hx.symm.trans hslot)
    exact ⟨_, rfl, rfl, rfl, fun _ => rfl⟩
  | _ => exact ⟨x, hx, rfl, rfl, fun _ => rfl⟩

end Writes

/-- Settles O18: the fault entry leaves every entity, and of the writes only the named ones change a parameter. -/
theorem parametersWrittenOnlyByName : Obligations.ParametersWrittenOnlyByName := by
  intro i s t h
  obtain ⟨code, rfl⟩ | ⟨write, outputs, hw, rfl⟩ := exec_next_writes h
  · exact ⟨fun _ acc hacc => ⟨acc, hacc, rfl⟩, id, fun _ x hx => ⟨x, hx, rfl, rfl, fun _ => rfl⟩⟩
  · exact ⟨fun hne _ => hw.accn_width hne, hw.acc4_width, fun hne _ => hw.nco_parameters hne⟩

end Sys2Proof.Machine
end

section
/-! SUPPORT. The ripple-carry chain as an adder and as a register (R150, R151): the exact total it outputs, what it
stores, the well-formedness it keeps, and the five statements about the accumulators' steps. -/

namespace Sys2Proof.Machine

/-! ## The chain as an adder -/

/-- The sum and the carry-out of the chain make up the exact total of the register, the addend and the carry-in. -/
theorem val_ripple_sum (clk : Bit) {cells : List Acc1Cell} {y : Bits} (hy : y.length = cells.length) (c : Bit) :
    val (ripple clk cells y c).2.1 + 2 ^ cells.length * (ripple clk cells y c).2.2.toNat
      = val (cells.map Acc1Cell.q) + val y + c.toNat := by
  induction cells generalizing y c with
  | nil =>
    obtain rfl := List.length_eq_zero_iff.1 hy
    simp
  | cons cell cells ih =>
    cases y with
    | nil => simp at hy
    | cons b y =>
      have hrest := ih (Nat.succ.inj hy) (carryBit b cell.q c)
      have hbit := sumBit_carryBit b cell.q c
      simp only [ripple_cons, List.headD_cons, List.tail_cons, val_cons, List.map_cons, List.length_cons, Nat.pow_succ]
      linarith

/-! ## The chain as a register -/

/-- Every cell after the chain is a cell before it, stepped with the common clock. -/
theorem exists_acc1Next_of_mem_ripple {clk : Bit} {cells : List Acc1Cell} {y : Bits} {c : Bit} {cell' : Acc1Cell}
    (h : cell' ∈ (ripple clk cells y c).1) :
    ∃ cell ∈ cells, ∃ b cin, cell' = (acc1Next cell b clk cin).1 := by
  induction cells generalizing y c with
  | nil => simp at h
  | cons cell cells ih =>
    rw [ripple_cons, List.mem_cons] at h
    rcases h with rfl | h
    · exact ⟨cell, List.mem_cons_self, _, _, rfl⟩
    · obtain ⟨cell₀, hmem, hstep⟩ := ih h
      exact ⟨cell₀, List.mem_cons_of_mem cell hmem, hstep⟩

/-- A step of the flip-flop raises the edge flag only at clock 1, which it remembers. -/
theorem dffNext_wf (f : DffState) (clk d : Bit) : (dffNext f clk d).Wf := fun h => (risingEdge_iff.1 h).1

theorem acc1Next_wf (cell : Acc1Cell) (y clk cin : Bit) : (acc1Next cell y clk cin).1.Wf :=
  ⟨rfl, dffNext_wf cell.dff clk _⟩

section
variable {clk : Bit} {cells : List Acc1Cell} {y : Bits} {c : Bit}

theorem ripple_cell_wf {cell : Acc1Cell} (h : cell ∈ (ripple clk cells y c).1) : cell.Wf := by
  obtain ⟨cell₀, -, b, cin, rfl⟩ := exists_acc1Next_of_mem_ripple h
  exact acc1Next_wf cell₀ b clk cin

theorem ripple_cell_last {cell : Acc1Cell} (h : cell ∈ (ripple clk cells y c).1) : cell.dff.last = clk := by
  obtain ⟨cell₀, -, b, cin, rfl⟩ := exists_acc1Next_of_mem_ripple h
  rfl

theorem ripple_low_cell_edge {cell : Acc1Cell} (h : cell ∈ (ripple false cells y c).1) : cell.dff.edge = false := by
  obtain ⟨cell₀, -, b, cin, rfl⟩ := exists_acc1Next_of_mem_ripple h
  rfl

/-- On a rising edge of every cell the chain stores its sum. -/
theorem ripple_stores_sum (h : ∀ cell ∈ cells, risingEdge cell.dff.last clk = true) :
    (ripple clk cells y c).1.map Acc1Cell.q = (ripple clk cells y c).2.1 := by
  induction cells generalizing y c with
  | nil => rfl
  | cons cell cells ih =>
    obtain ⟨hcell, hcells⟩ := List.forall_mem_cons.1 h
    simp [ripple_cons, ih hcells, hcell]

/-- Without an edge in any cell the chain keeps what its flip-flops hold. -/
theorem ripple_holds (hedge : ∀ cell ∈ cells, risingEdge cell.dff.last clk = false)
    (hmirror : ∀ cell ∈ cells, cell.q = cell.dff.q) :
    (ripple clk cells y c).1.map Acc1Cell.q = cells.map Acc1Cell.q := by
  induction cells generalizing y c with
  | nil => rfl
  | cons cell cells ih =>
    obtain ⟨hcell, hcells⟩ := List.forall_mem_cons.1 hedge
    obtain ⟨hq, hqs⟩ := List.forall_mem_cons.1 hmirror
    simp [ripple_cons, ih hcells hqs, hcell, hq]

end

/-! ## One step of a well-formed accumulator -/

theorem AccN.exists_mem_last {acc : AccN} (h : acc.cells ≠ []) : ∃ cell ∈ acc.cells, acc.last = cell.dff.last := by
  obtain ⟨cell, cells, hcells⟩ := List.exists_cons_of_ne_nil h
  exact ⟨cell, by simp [hcells], by simp [AccN.last, hcells]⟩

theorem AccN.Wf.cells_ne_nil {acc : AccN} (h : acc.Wf) : acc.cells ≠ [] :=
  List.ne_nil_of_length_pos (h.cells ▸ h.width)

theorem AccN.Wf.length_q {acc : AccN} (h : acc.Wf) : acc.q.length = acc.n := by
  rw [AccN.q, List.length_map, h.cells]

section
variable {acc : AccN} (h : acc.Wf) (y : Bits) (clk cin : Bit)
include h

theorem accNNext_last : (accNNext acc y clk cin).1.last = clk := by
  have hne : (accNNext acc y clk cin).1.cells ≠ [] :=
    List.ne_nil_of_length_pos ((length_ripple_cells clk acc.cells y cin).trans h.cells ▸ h.width)
  obtain ⟨cell, hmem, hlast⟩ := AccN.exists_mem_last hne
  exact hlast.trans (ripple_cell_last hmem)

/-- A step keeps an accumulator well formed, whatever its operands. -/
theorem accNNext_wf : (accNNext acc y clk cin).1.Wf where
  width := h.width
  cells := (length_ripple_cells clk acc.cells y cin).trans h.cells
  cell _ := ripple_cell_wf
  lockstep _ hmem := (ripple_cell_last hmem).trans (accNNext_last h y clk cin).symm

theorem length_accNNext_sum : (accNNext acc y clk cin).2.1.length = acc.n :=
  (length_ripple_sum clk acc.cells y cin).trans h.cells

/-- The register takes the sum exactly on a rising edge of the common clock. -/
theorem accNNext_q :
    (accNNext acc y clk cin).1.q = if risingEdge acc.last clk then (accNNext acc y clk cin).2.1 else acc.q := by
  cases hedge : risingEdge acc.last clk with
  | true => exact ripple_stores_sum fun cell hmem => h.lockstep cell hmem ▸ hedge
  | false =>
    exact ripple_holds (fun cell hmem => h.lockstep cell hmem ▸ hedge) fun cell hmem => (h.cell cell hmem).mirror

theorem accNNext_total (hy : y.length = acc.n) :
    val (accNNext acc y clk cin).2.1 + 2 ^ acc.n * (accNNext acc y clk cin).2.2.toNat
      = val acc.q + val y + cin.toNat := by
  have htotal := val_ripple_sum clk (hy.trans h.cells.symm) cin
  rwa [h.cells] at htotal

end

/-- With no addend and no carry-in the chain outputs the register and no carry. -/
theorem accNNext_settle {acc : AccN} (h : acc.Wf) (clk : Bit) :
    (accNNext acc (zeros acc.n) clk false).2 = (acc.q, false) := by
  have htotal := accNNext_total h (zeros acc.n) clk false (length_zeros acc.n)
  have hsum := length_accNNext_sum h (zeros acc.n) clk false
  have hlt := h.length_q ▸ val_lt acc.q
  simp only [val_zeros, Bool.toNat_false, Nat.add_zero] at htotal
  cases hco : (accNNext acc (zeros acc.n) clk false).2.2 with
  | true =>
    simp only [hco, Bool.toNat_true, Nat.mul_one] at htotal
    omega
  | false =>
    simp only [hco, Bool.toNat_false, Nat.mul_zero, Nat.add_zero] at htotal
    exact Prod.ext (val_inj (hsum.trans h.length_q.symm) htotal) hco

/-! ## A second step at clock 1 -/

theorem dffNext_high_twice (f : DffState) (d1 d2 : Bit) :
    (dffNext (dffNext f true d1) true d2).q = (dffNext f true d1).q := by
  rw [dffNext_q_of_no_edge d2 (risingEdge_held true)]

theorem acc1Next_high_twice (cell : Acc1Cell) (y1 y2 c1 c2 : Bit) :
    (acc1Next (acc1Next cell y1 true c1).1 y2 true c2).1.q = (acc1Next cell y1 true c1).1.q :=
  dffNext_high_twice cell.dff (sumBit y1 cell.q c1) (sumBit y2 (acc1Next cell y1 true c1).1.q c2)

/-- The accumulator need not be well formed: its first step leaves every cell mirroring its flip-flop at level 1. -/
theorem accNNext_high_twice (acc : AccN) (y1 y2 : Bits) (c1 c2 : Bit) :
    (accNNext (accNNext acc y1 true c1).1 y2 true c2).1.q = (accNNext acc y1 true c1).1.q :=
  ripple_holds (fun _ hmem => by rw [ripple_cell_last hmem, risingEdge_held]) fun _ hmem => (ripple_cell_wf hmem).mirror

/-! ## The steps of the two accumulators -/

/-- A binary string that fits converts to a vector of its value. -/
theorem exists_parse_of_fits {w : Nat} {t : Digits} (hd : ∀ c ∈ t, c = '0' ∨ c = '1') (hl : t.length ≤ w) :
    ∃ y, parse w t = .ok y ∧ y.length = w ∧ val y = digitsValue 0 t := by
  obtain ⟨y, hparse, hlen, -, -, hval, -⟩ := narrowOperandsAreZeroPadded w t hd hl
  exact ⟨y, hparse, hlen, hval⟩

/-- A total split into a vector and a carry above it: the vector is the total modulo `2 ^ n`, and the carry tells
whether the total reached `2 ^ n`. -/
theorem val_eq_mod_of_total {v : Bits} {co : Bit} {k : Nat} (h : val v + 2 ^ v.length * co.toNat = k) :
    val v = k % 2 ^ v.length ∧ (co = true ↔ 2 ^ v.length ≤ k) := by
  have hlt := val_lt v
  subst h
  refine ⟨by rw [Nat.add_mul_mod_self_left, Nat.mod_eq_of_lt hlt], ?_⟩
  cases co <;> simp [hlt]

/-- Settles O34: the chain's total is split at `2 ^ n`, and a well-formed accumulator stores its sum on an edge. -/
theorem accnStepAdds : Obligations.AccnStepAdds := by
  intro clk cin t s acc hacc hwf hd hl
  obtain ⟨y, hparse, hlen, hval⟩ := exists_parse_of_fits hd hl
  have hsum := length_accNNext_sum hwf y clk cin
  have htotal := accNNext_total hwf y clk cin hlen
  rw [hval, ← hsum] at htotal
  obtain ⟨hmod, hcarry⟩ := val_eq_mod_of_total htotal
  rw [hsum] at hmod hcarry
  exact ⟨_, _, _, exec_accnStep_of_parse_ok hacc hparse, hsum, hmod, hcarry, accNNext_q hwf y clk cin,
    accNNext_last hwf y clk cin, rfl, accNNext_wf hwf y clk cin⟩

/-- Settles O37: the N-bit rule at width 4. -/
theorem acc4StepAdds : Obligations.Acc4StepAdds := by
  intro clk cin t s hwf hn hd hl
  obtain ⟨y, hparse, hlen, hval⟩ := exists_parse_of_fits hd hl
  have hsum := length_accNNext_sum hwf y clk cin
  have htotal := accNNext_total hwf y clk cin (hlen.trans hn.symm)
  rw [hn] at hsum htotal
  exact ⟨_, _, _, exec_acc4Step_of_parse_ok hparse, hsum, hval ▸ htotal, accNNext_q hwf y clk cin,
    accNNext_last hwf y clk cin, hn, accNNext_wf hwf y clk cin⟩

/-! ## Two clock-1 steps in a row -/

theorem exec_accnStep_next {clk cin : Bit} {v : Digits} {s t : State} (h : exec (.accnStep clk cin v) s = .next t) :
    (∃ code, t = s.setFault code)
      ∨ ∃ acc y outputs, s.accn = .ready acc
        ∧ t = (s.setAccn (.ready (accNNext acc y clk cin).1)).record .accnStep outputs := by
  obtain hfault | ⟨_, outputs, hw, rfl⟩ := exec_next_writes h
  · exact .inl hfault
  · cases hw with
    | pure hi | sr hi => cases hi
    | accnStep _ _ _ hacc y => exact .inr ⟨_, y, outputs, hacc, rfl⟩

theorem exec_acc4Step_next {clk cin : Bit} {v : Digits} {s t : State} (h : exec (.acc4Step clk cin v) s = .next t) :
    (∃ code, t = s.setFault code)
      ∨ ∃ y outputs, t = (s.setAcc4 (accNNext s.acc4 y clk cin).1).record .acc4Step outputs := by
  obtain hfault | ⟨_, outputs, hw, rfl⟩ := exec_next_writes h
  · exact .inl hfault
  · cases hw with
    | pure hi | sr hi => cases hi
    | acc4Step _ _ _ y => exact .inr ⟨y, outputs, rfl⟩

/-- Settles O38: after a completed step at clock 1 every flip-flop remembers that level, so that the next step at clock
1 is no edge for any of them. -/
theorem secondHighClockStoresNothing : Obligations.SecondHighClockStoresNothing := by
  refine ⟨?dff, ?acc1, ?accn, ?acc4⟩
  case dff =>
    intro d1 d2 s t u h1 h2
    obtain rfl := Host.Outcome.next.inj h1
    obtain rfl := Host.Outcome.next.inj h2
    exact dffNext_high_twice s.dff d1 d2
  case acc1 =>
    intro y1 y2 c1 c2 s t u h1 h2
    obtain rfl := Host.Outcome.next.inj h1
    obtain rfl := Host.Outcome.next.inj h2
    exact acc1Next_high_twice s.acc1 y1 y2 c1 c2
  case accn =>
    intro v1 v2 c1 c2 s t u acc1 acc2 h1 hpc h2 hacc1 hacc2
    obtain ⟨code, rfl⟩ | ⟨acc, y1, outputs, -, rfl⟩ := exec_accnStep_next h1
    · simp at hpc
    obtain rfl := Slot.ready.inj hacc1
    obtain ⟨code, rfl⟩ | ⟨acc', y2, outputs', hacc', rfl⟩ := exec_accnStep_next h2
    · exact congrArg AccN.q (Slot.ready.inj hacc2).symm
    · obtain rfl := Slot.ready.inj hacc'
      obtain rfl := Slot.ready.inj hacc2
      exact accNNext_high_twice acc y1 y2 c1 c2
  case acc4 =>
    intro v1 v2 c1 c2 s t u h1 hpc h2
    obtain ⟨code, rfl⟩ | ⟨y1, outputs, rfl⟩ := exec_acc4Step_next h1
    · simp at hpc
    obtain ⟨code, rfl⟩ | ⟨y2, outputs', rfl⟩ := exec_acc4Step_next h2
    · rfl
    · exact accNNext_high_twice s.acc4 y1 y2 c1 c2

/-! ## The settle step and the cycle -/

theorem exec_accnStep_settle {s : State} {acc : AccN} (hacc : s.accn = .ready acc) (h : acc.Wf) :
    exec (.accnStep false false []) s =
      .next ((s.setAccn (.ready (accNNext acc (zeros acc.n) false false).1)).record .accnStep
        [.text (text acc.q), .bit false]) := by
  have hparse : parse acc.n [] = .ok (zeros acc.n) := parse_of_fits nofun (Nat.zero_le acc.n)
  rw [exec_accnStep_of_parse_ok hacc hparse, accNNext_settle h]

/-- Settles O39: the addend is zero, so that the sum is the register, and clock 0 is no edge. -/
theorem settleReadsTheRegister : Obligations.SettleReadsTheRegister := fun _ acc hacc h =>
  ⟨_, exec_accnStep_settle hacc h, accNNext_q h (zeros acc.n) false false, accNNext_last h (zeros acc.n) false false,
    accNNext_wf h (zeros acc.n) false false⟩

theorem runAll_nil (s : State) : runAll [] s = .next s := rfl

/-- A run goes on after an operation that does not fault. -/
theorem runAll_cons_of_next {i : Instr} {is : List Instr} {s t : State} (h : exec i s = .next t) (hf : t.fault = none) :
    runAll (i :: is) s = runAll is t := by
  simp [runAll, h, hf]

/-- A run ends with an operation that faults. -/
theorem runAll_cons_of_fault {i : Instr} {is : List Instr} {s : State} {code : FaultCode}
    (h : exec i s = .next (s.setFault code)) : runAll (i :: is) s = .next (s.setFault code) := by
  simp [runAll, h]

/-- Settles O40: the step at clock 1 is an edge of the settled accumulator and stores its sum, and the step at clock 0
reads it back. -/
theorem accnCycleAccumulates : Obligations.AccnCycleAccumulates := by
  intro t s acc hf hacc h hlast hd hl
  obtain ⟨acc', sum, co, hexec, -, hval, -, hq, -, hn, hwf⟩ := accnStepAdds true false t s acc hacc h hd hl
  obtain rfl : sum = acc'.q := by simpa [hlast] using hq.symm
  have hsettle := exec_accnStep_settle (s := (s.setAccn (.ready acc')).record .accnStep [.text (text acc'.q), .bit co])
    rfl hwf
  refine ⟨(accNNext acc' (zeros acc'.n) false false).1, co, ?run, hn, accNNext_wf hwf _ false false,
    accNNext_last hwf _ false false, ?value⟩
  case run =>
    refine (runAll_cons_of_next hexec hf).trans ((runAll_cons_of_next hsettle hf).trans ?_)
    rw [runAll_nil, accNNext_q hwf]
    rfl
  case value =>
    rw [accNNext_q hwf]
    exact hval

end Sys2Proof.Machine
end

section
/-! SUPPORT. The numerically controlled oscillator as a phase accumulator: the bounds of the tuning word (R171, R173),
the phase law (R175 to R177), runs of NCO operations (R178), and the five statements about them. -/

namespace Sys2Proof.Machine

/-! ## The bounds of the tuning word -/

section
variable {n : Nat} {fmclk fout : Rat}

theorem tuningQuotient_eq_floor : tuningQuotient n fmclk fout = ⌊(2 ^ n * fout / fmclk : Rat)⌋₊ := by
  rw [← Int.floor_toNat, tuningQuotient, Nat.cast_pow, Nat.cast_ofNat]
  rfl

variable (hclk : 0 < fmclk) (hf : 0 ≤ fout)
include hclk hf

theorem quotient_nonneg : 0 ≤ 2 ^ n * fout / fmclk := by positivity

/-- The quotient is out of `n` bits exactly when the output frequency reaches the clock frequency. -/
theorem tuningQuotient_gt_iff : 2 ^ n - 1 < tuningQuotient n fmclk fout ↔ fmclk ≤ fout := by
  have hpos : (0 : Rat) < 2 ^ n := by positivity
  calc 2 ^ n - 1 < tuningQuotient n fmclk fout
      ↔ 2 ^ n ≤ tuningQuotient n fmclk fout := by have := Nat.two_pow_pos n; omega
    _ ↔ 2 ^ n ≤ 2 ^ n * fout / fmclk := by
      rw [tuningQuotient_eq_floor, Nat.le_floor_iff (quotient_nonneg hclk hf), Nat.cast_pow, Nat.cast_ofNat]
    _ ↔ fmclk ≤ fout := by rw [le_div_iff₀ hclk, mul_le_mul_iff_right₀ hpos]

theorem tuningWord_of_clock_le (h : fmclk ≤ fout) : tuningWord n fmclk fout = (ones n, true) :=
  tuningWord_of_gt ((tuningQuotient_gt_iff hclk hf).2 h)

theorem tuningQuotient_le_of_lt_clock (h : fout < fmclk) : tuningQuotient n fmclk fout ≤ 2 ^ n - 1 :=
  Nat.not_lt.1 (mt (tuningQuotient_gt_iff hclk hf).1 h.not_ge)

theorem tuningWord_clamped_iff : (tuningWord n fmclk fout).2 = true ↔ fmclk ≤ fout := by
  rcases le_or_gt fmclk fout with h | h
  · simp [tuningWord_of_clock_le hclk hf h, h]
  · simp [tuningWord_of_le (tuningQuotient_le_of_lt_clock hclk hf h), h]

end

theorem tuningWord_zero {n : Nat} {fmclk : Rat} (hclk : 0 < fmclk) : (tuningWord n fmclk 0).1 = zeros n := by
  have hval := val_tuningWord_of_le (tuningQuotient_le_of_lt_clock (n := n) hclk le_rfl hclk)
  refine val_inj (by simp) ?_
  rw [hval, val_zeros, tuningQuotient_eq_floor, mul_zero, zero_div, Nat.floor_zero]

/-- Settles O45: the word is the floor of the exact quotient, unless that floor does not fit. -/
theorem tuningWordBounds : Obligations.TuningWordBounds := by
  intro n fmclk fout hclk hf
  refine ⟨length_tuningWord, tuningWord_clamped_iff hclk hf,
    fun h => congrArg Prod.fst (tuningWord_of_clock_le hclk hf h), fun h => ?bounds, ?zero⟩
  case bounds =>
    rw [val_tuningWord_of_le (tuningQuotient_le_of_lt_clock hclk hf h), tuningQuotient_eq_floor]
    exact ⟨Nat.floor_le (quotient_nonneg hclk hf), Nat.lt_floor_add_one _⟩
  case zero =>
    rintro rfl
    exact tuningWord_zero hclk

/-! ## Well-formed accumulators and NCOs -/

theorem Acc1Cell.zero_wf : Acc1Cell.zero.Wf := ⟨rfl, nofun⟩

theorem AccN.zero_wf {n : Nat} (h1 : 1 ≤ n) : (AccN.zero n).Wf := by
  have hcell : ∀ cell ∈ (AccN.zero n).cells, cell = Acc1Cell.zero := fun _ => List.eq_of_mem_replicate
  refine ⟨h1, List.length_replicate, fun cell hmem => hcell cell hmem ▸ Acc1Cell.zero_wf, fun cell hmem => ?_⟩
  obtain ⟨cell₀, hmem₀, hlast⟩ := AccN.exists_mem_last (List.ne_nil_of_mem hmem)
  rw [hlast, hcell cell hmem, hcell cell₀ hmem₀]

theorem AccN.zero_q (n : Nat) : (AccN.zero n).q = zeros n := List.map_replicate

theorem AccN.zero_last (n : Nat) : (AccN.zero n).last = false := by
  cases n <;> rfl

theorem NcoState.fresh_wf {n : Nat} {fmclk : Rat} (h1 : 1 ≤ n) (hclk : 0 < fmclk) : (NcoState.fresh n fmclk).Wf where
  clock := hclk
  tw := length_zeros n
  phase := length_zeros n
  accWidth := rfl
  acc := AccN.zero_wf h1
  mirror := (AccN.zero_q n).symm
  settled := AccN.zero_last n

theorem NcoState.Wf.setTw {x : NcoState} (h : x.Wf) {tw : Bits} (htw : tw.length = x.n) : { x with tw := tw }.Wf :=
  { h with tw := htw }

/-! ## One accumulation cycle -/

/-- The accumulator between the two calls of a cycle: after the call at clock 1 with the tuning word (R175). -/
def NcoState.clocked (x : NcoState) : AccN := (accNNext x.acc x.tw true false).1

section
variable {x : NcoState} (h : x.Wf)
include h

theorem clocked_wf : x.clocked.Wf := accNNext_wf h.acc x.tw true false

/-- The settled accumulator sees an edge, and its register becomes the sum of the phase and the tuning word. -/
theorem val_clocked_q : val x.clocked.q = (val x.phase + val x.tw) % 2 ^ x.n := by
  have hsum := length_accNNext_sum h.acc x.tw true false
  have htotal := accNNext_total h.acc x.tw true false (h.tw.trans h.accWidth.symm)
  rw [← hsum, ← h.mirror, Bool.toNat_false, Nat.add_zero] at htotal
  rw [NcoState.clocked, accNNext_q h.acc, h.settled, risingEdge_high, if_pos rfl, (val_eq_mod_of_total htotal).1, hsum,
    h.accWidth]

theorem ncoCycle_phase : (ncoCycle x).phase = x.clocked.q := by
  have hsettle := accNNext_settle (clocked_wf h) false
  rw [show x.clocked.n = x.n from h.accWidth] at hsettle
  exact congrArg Prod.fst hsettle

theorem ncoCycle_acc_q : (ncoCycle x).acc.q = x.clocked.q := accNNext_q (clocked_wf h) (zeros x.n) false false

theorem ncoCycle_wf : (ncoCycle x).Wf where
  clock := h.clock
  tw := h.tw
  phase := (congrArg List.length (ncoCycle_phase h)).trans ((clocked_wf h).length_q.trans h.accWidth)
  accWidth := h.accWidth
  acc := accNNext_wf (clocked_wf h) (zeros x.n) false false
  mirror := (ncoCycle_phase h).trans (ncoCycle_acc_q h).symm
  settled := accNNext_last (clocked_wf h) (zeros x.n) false false

theorem val_ncoCycle_phase : val (ncoCycle x).phase = (val x.phase + val x.tw) % 2 ^ x.n := by
  rw [ncoCycle_phase h, val_clocked_q h]

end

/-- Settles O47: the call at clock 1 latches the sum of phase and tuning word, and the call at clock 0 reads it back and
clears every edge flag. -/
theorem ncoPhaseLaw : Obligations.NcoPhaseLaw := fun _ x hx h =>
  ⟨ncoCycle x, exec_ncoAdvance_of_ready hx, val_ncoCycle_phase h, rfl, rfl, rfl, ncoCycle_wf h,
    fun _ => ripple_low_cell_edge⟩

/-! ## The phase sequence -/

theorem NcoState.Wf.val_phase_lt {x : NcoState} (h : x.Wf) : val x.phase < 2 ^ x.n := h.phase ▸ val_lt x.phase

theorem eq_vecOf_of_val {v : Bits} {n k : Nat} (hl : v.length = n) (hv : val v = k % 2 ^ n) :
    v = vecOf n (k % 2 ^ n) :=
  val_inj (by simp [hl]) (by rw [hv, val_vecOf, Nat.mod_mod])

/-- Advancing from the next phase is advancing one place later from this one. -/
theorem phase_shift (p tw m j : Nat) : ((p + tw) % m + j * tw) % m = (p + (j + 1) * tw) % m := by
  rw [Nat.mod_add_mod]
  ring_nf

/-- The record of advance `j + 1` from the phase `p` with the tuning word `tw`, at width `n`. -/
def phaseRecord (n p tw j : Nat) : OutRecord :=
  ⟨.ncoAdvance, [.text (text (vecOf n ((p + (j + 1) * tw) % 2 ^ n)))]⟩

theorem map_phaseRecord_succ (n p tw k : Nat) :
    (List.range (k + 1)).map (phaseRecord n p tw)
      = phaseRecord n p tw 0 :: (List.range k).map (phaseRecord n ((p + tw) % 2 ^ n) tw) := by
  have hshift : phaseRecord n p tw ∘ Nat.succ = phaseRecord n ((p + tw) % 2 ^ n) tw :=
    funext fun j => by simp only [Function.comp_apply, phaseRecord, phase_shift]
  rw [List.range_succ_eq_map, List.map_cons, List.map_map, hshift]

theorem exec_ncoAdvance_of_wf {s : State} {x : NcoState} (hx : s.nco = .ready x) (h : x.Wf) :
    exec .ncoAdvance s =
      .next { s with
        nco := .ready (ncoCycle x)
        trace := s.trace ++ [phaseRecord x.n (val x.phase) (val x.tw) 0]
        pc := s.pc + 1 } := by
  have hphase : (ncoCycle x).phase = vecOf x.n ((val x.phase + (0 + 1) * val x.tw) % 2 ^ x.n) :=
    eq_vecOf_of_val (ncoCycle_wf h).phase (by rw [val_ncoCycle_phase h, Nat.zero_add, Nat.one_mul])
  rw [exec_ncoAdvance_of_ready hx, phaseRecord, ← hphase]
  rfl

/-- Settles O48: induction on the number of advances, each of them the phase law. -/
theorem ncoPhaseSequence : Obligations.NcoPhaseSequence := by
  intro k
  induction k with
  | zero =>
    intro s x _ hx h
    refine ⟨x, ?_, by simp [Nat.mod_eq_of_lt h.val_phase_lt], rfl, rfl, rfl, h⟩
    simp [runAll_nil, ← hx]
  | succ k ih =>
    intro s x hf hx h
    have hexec := exec_ncoAdvance_of_wf hx h
    obtain ⟨x', hrun, hval, htw, hn, hclk, hwf⟩ := ih
      ((s.setNco (.ready (ncoCycle x))).record .ncoAdvance _) (ncoCycle x) hf rfl (ncoCycle_wf h)
    refine ⟨x', ?run, ?value, htw, hn, hclk, hwf⟩
    case run =>
      have htrace : s.trace ++ [phaseRecord x.n (val x.phase) (val x.tw) 0]
            ++ (List.range k).map (phaseRecord x.n (val (ncoCycle x).phase) (val x.tw))
          = s.trace ++ (List.range (k + 1)).map (phaseRecord x.n (val x.phase) (val x.tw)) := by
        rw [map_phaseRecord_succ, val_ncoCycle_phase h, List.append_assoc, List.singleton_append]
      rw [List.replicate_succ]
      refine (runAll_cons_of_next hexec hf).trans (hrun.trans ?_)
      exact congrArg₂ (fun trace pc => Host.Outcome.next { s with nco := .ready x', trace := trace, pc := pc })
        htrace (Nat.add_right_comm s.pc 1 k)
    case value =>
      rw [hval, val_ncoCycle_phase h]
      exact phase_shift _ _ _ _

/-! ## Runs of NCO operations -/

theorem OwnWrite.eq_setNco {write : State → State} (h : OwnWrite .nco write) : ∃ x, write = (·.setNco x) := by
  cases h with
  | nco x => exact ⟨x, rfl⟩

/-- Settles O49: on both benches the first operation answers alike, with a write of the NCO alone, and the rest of the
run is the same statement again. -/
theorem ncoRunsAgree : Obligations.NcoRunsAgree := by
  intro is
  induction is with
  | nil =>
    intro s1 s2 t1 _ hnco hcfg hf1 hf2 hrun
    obtain rfl := Host.Outcome.next.inj hrun
    exact ⟨s2, [], rfl, hnco.symm, by simp, by simp, by rw [hf1, hf2]⟩
  | cons i is ih =>
    intro s1 s2 t1 his hnco hcfg hf1 hf2 hrun
    obtain ⟨hi, his⟩ := List.forall_mem_cons.1 his
    have hagree : s1.AgreeOn (entityOf i) s2 := hi ▸ ⟨hcfg.symm, nofun, nofun, nofun, nofun, nofun, fun _ => hnco.symm⟩
    rcases exec_answersAlike i s1 with ⟨code, hfault⟩ | ⟨write, outputs, hw, hdone⟩
    · rw [runAll_cons_of_fault (hfault s1 (.refl _ s1))] at hrun
      obtain rfl := Host.Outcome.next.inj hrun
      exact ⟨_, [], runAll_cons_of_fault (hfault s2 hagree), hnco.symm, by simp, by simp, rfl⟩
    · obtain ⟨x, rfl⟩ := (hi ▸ hw.ownWrite : OwnWrite .nco write).eq_setNco
      rw [runAll_cons_of_next (hdone s1 (.refl _ s1)) hf1] at hrun
      obtain ⟨t2, records, hrun2, hnco2, htrace1, htrace2, hcode⟩ := ih ((s1.setNco x).record (mnemonicOf i) outputs)
        ((s2.setNco x).record (mnemonicOf i) outputs) t1 his rfl hcfg hf1 hf2 hrun
      refine ⟨t2, ⟨mnemonicOf i, outputs⟩ :: records, ?_, hnco2, ?_, ?_, hcode⟩
      · rw [runAll_cons_of_next (hdone s2 hagree) hf2, hrun2]
      · simp [htrace1]
      · simp [htrace2]

/-- Settles O50: NCO.INIT builds the zero NCO, and NCO.SETFREQ then writes the tuning word alone. -/
theorem ncoStartConfigures : Obligations.NcoStartConfigures := by
  intro n fmclk fout s hf hslot h1 hcap hclk hfout
  have hinit := exec_ncoInit_of_good_width hslot hclk (constructionStatus_of_within h1 hcap)
  have hset := exec_ncoSetfreq_of_nonneg
    (s := (s.setNco (.ready (NcoState.fresh n fmclk))).record .ncoInit [.bit false]) rfl hfout
  exact ⟨_, _, (runAll_cons_of_next hinit hf).trans (runAll_cons_of_next hset hf), rfl,
    (NcoState.fresh_wf h1 hclk).setTw length_tuningWord, rfl, rfl, rfl, rfl, rfl, hf⟩

end Sys2Proof.Machine
end

section
/-! SUPPORT. The invariant of the bench: it holds at reset, and every write, both ends of an operation and so every step
keep it. -/

namespace Sys2Proof.Machine

theorem within_of_constructionStatus {cfg : Config} {n : Nat} (h : constructionStatus cfg n = false) :
    1 ≤ n ∧ exceedsCapacity cfg n = false := by
  rw [constructionStatus, Bool.or_eq_false_iff, beq_eq_false_iff_ne] at h
  exact ⟨Nat.one_le_iff_ne_zero.2 h.1, h.2⟩

/-- Settles O14: every cell is the zero cell, both slots are unconstructed, and nothing has run. -/
theorem resetMeetsInvariant : Obligations.ResetMeetsInvariant where
  dff := nofun
  acc1 := Acc1Cell.zero_wf
  acc4 := AccN.zero_wf (by decide)
  acc4Width := rfl
  accn := nofun
  nco := nofun
  pc := le_rfl
  fault := nofun
  trace := rfl

/-! ## Writes -/

namespace State.Inv
variable {s : State} (h : s.Inv)
include h

theorem setDff {f : DffState} (hf : f.Wf) : (s.setDff f).Inv := { h with dff := hf }

theorem setAcc1 {cell : Acc1Cell} (hcell : cell.Wf) : (s.setAcc1 cell).Inv := { h with acc1 := hcell }

theorem setAcc4 {acc : AccN} (hacc : acc.Wf) (hn : acc.n = 4) : (s.setAcc4 acc).Inv :=
  { h with acc4 := hacc, acc4Width := hn }

theorem setAccn_failed : (s.setAccn .failed).Inv := { h with accn := nofun }

theorem setAccn_ready {acc : AccN} (hacc : acc.Wf) (hcap : exceedsCapacity s.cfg acc.n = false) :
    (s.setAccn (.ready acc)).Inv :=
  { h with accn := fun _ e => Slot.ready.inj e ▸ ⟨hacc, hcap⟩ }

theorem setNco_failed : (s.setNco .failed).Inv := { h with nco := nofun }

theorem setNco_ready {x : NcoState} (hx : x.Wf) (hcap : exceedsCapacity s.cfg x.n = false) :
    (s.setNco (.ready x)).Inv :=
  { h with nco := fun _ e => Slot.ready.inj e ▸ ⟨hx, hcap⟩ }

end State.Inv

/-- What an operation writes is well formed and within the capacity where what it reads is. -/
theorem Writes.inv {s : State} {i : Instr} {write : State → State} (hw : Writes s i write) (h : s.Inv) :
    (write s).Inv := by
  cases hw with
  | pure => exact h
  | sr => exact { h with }
  | dffInit => exact h.setDff nofun
  | dffStep => exact h.setDff (dffNext_wf s.dff _ _)
  | acc1Init => exact h.setAcc1 Acc1Cell.zero_wf
  | acc1Step => exact h.setAcc1 (acc1Next_wf s.acc1 _ _ _)
  | accnFailed => exact h.setAccn_failed
  | accnBuilt hn =>
    obtain ⟨h1, hcap⟩ := within_of_constructionStatus hn
    exact h.setAccn_ready (AccN.zero_wf h1) hcap
  | accnStep _ _ _ hacc =>
    obtain ⟨hwf, hcap⟩ := h.accn _ hacc
    exact h.setAccn_ready (accNNext_wf hwf _ _ _) hcap
  | acc4Init => exact h.setAcc4 (AccN.zero_wf (by decide)) rfl
  | acc4Step => exact h.setAcc4 (accNNext_wf h.acc4 _ _ _) h.acc4Width
  | ncoFailed => exact h.setNco_failed
  | ncoBuilt hclk hn =>
    obtain ⟨h1, hcap⟩ := within_of_constructionStatus hn
    exact h.setNco_ready (NcoState.fresh_wf h1 hclk) hcap
  | ncoSetfreq _ hx =>
    obtain ⟨hwf, hcap⟩ := h.nco _ hx
    exact h.setNco_ready (hwf.setTw length_tuningWord) hcap
  | ncoAdvance hx =>
    obtain ⟨hwf, hcap⟩ := h.nco _ hx
    exact h.setNco_ready (ncoCycle_wf hwf) hcap

/-! ## The two ends of an operation -/

section
variable {s : State} (h : s.Inv) (hlt : s.pc < s.prog.length)
include h hlt

/-- The fault register names the operation at `pc`, which is in the program. -/
theorem State.Inv.setFault (code : FaultCode) : (s.setFault code).Inv :=
  { h with fault := fun _ e => Option.some.inj e ▸ ⟨rfl, hlt⟩ }

/-- The record and the advance of `pc` keep the trace as long as `pc`. -/
theorem State.Inv.record (hf : s.fault = none) (m : Mnemonic) (outputs : List OutVal) : (s.record m outputs).Inv :=
  { h with
    pc := hlt
    fault := fun _ e => absurd (e.symm.trans hf) nofun
    trace := by simp [h.trace] }

end

/-- A write is made within the control part of the bench. -/
theorem OwnWrite.sameControl {e : Entity} {write : State → State} (h : OwnWrite e write) (s : State) :
    s.SameControl (write s) := by
  cases h with
  | pure => exact .refl s
  | sr x => exact .setSr s x
  | dff x => exact .setDff s x
  | acc1 x => exact .setAcc1 s x
  | accn x => exact .setAccn s x
  | acc4 x => exact .setAcc4 s x
  | nco x => exact .setNco s x

theorem exec_inv {i : Instr} {s t : State} (hs : s.Inv) (hf : s.fault = none) (hlt : s.pc < s.prog.length)
    (h : exec i s = .next t) : t.Inv := by
  obtain ⟨code, rfl⟩ | ⟨write, outputs, hw, rfl⟩ := exec_next_writes h
  · exact hs.setFault hlt code
  · obtain ⟨hpc, hfault, -, hprog, -⟩ := hw.ownWrite.sameControl s
    exact (hw.inv hs).record (by rwa [hpc, hprog]) (hfault.trans hf) (mnemonicOf i) outputs

/-- Settles O15: a step faults on the bench as it was, or completes after one write, and it runs only where the bench is
not halted and an operation is left. -/
theorem stepKeepsInvariant : Obligations.StepKeepsInvariant := by
  intro s t hs h
  obtain ⟨c, hfetch, hanswer⟩ := step_next h
  obtain ⟨hf, hp⟩ := fetch_command.1 hfetch
  obtain ⟨hlt, -⟩ := List.getElem?_eq_some_iff.1 hp
  rcases hanswer with ⟨e, -, rfl⟩ | ⟨i, -, hexec⟩
  · exact hs.setFault hlt (decodeFault e)
  · exact exec_inv hs hf hlt hexec

end Sys2Proof.Machine
end

section
/-! SUPPORT. The lines of the assembler (R78, R79): what each form of operands is read as, and the statement that every
line assembles to the commands of its operations. -/

namespace Sys2Proof.Machine

/-! ## The last operand of a line -/

theorem endsOperand_last (name value : List Char) : EndsOperand (operand name value) :=
  List.append_nil (operand name value) ▸ endsOperand_operand name value []

section
variable {name : List Char} (hn : nameOk name = true)
include hn

theorem bitArg_last (b : Bit) : bitArg name (operand name [digitOf b]) = some (b, []) := by
  simpa only [List.append_nil] using bitArg_operand hn b []

theorem ratArg_last {t : List Char} {q : Rat} (h : RatText t q) : ratArg name (operand name t) = some (q, []) := by
  simpa only [List.append_nil] using ratArg_operand hn h endsOperand_nil

end

theorem vecArg_last {t : Digits} (ht : quoteChar ∉ t) : vecArg (operand ['y'] (quoted t)) = some (t, []) := by
  simpa only [List.append_nil] using vecArg_operand ht []

theorem natArg_last {t : List Char} {k : Nat} (h : NatText t k) : natArg (operand ['n'] t) = some (k, []) := by
  simpa only [List.append_nil] using natArg_operand h endsOperand_nil

/-! ## The operands of a line -/

theorem twoBits_operands {n1 n2 : List Char} (h1 : nameOk n1 = true) (h2 : nameOk n2 = true) (k : Bit → Bit → Instr)
    (a b : Bit) : twoBits n1 n2 k (operand n1 [digitOf a] ++ operand n2 [digitOf b]) = some (k a b) := by
  simp only [twoBits, bitArg_operand h1, bitArg_last h2, Option.bind_some, finish_nil]

theorem threeBits_operands {n1 n2 n3 : List Char} (h1 : nameOk n1 = true) (h2 : nameOk n2 = true)
    (h3 : nameOk n3 = true) (k : Bit → Bit → Bit → Instr) (a b c : Bit) :
    threeBits n1 n2 n3 k (operand n1 [digitOf a] ++ (operand n2 [digitOf b] ++ operand n3 [digitOf c]))
      = some (k a b c) := by
  simp only [threeBits, bitArg_operand h1, bitArg_operand h2, bitArg_last h3, Option.bind_some, finish_nil]

theorem clockedVec_operands (k : Bit → Bit → Digits → Instr) (clk cin : Bit) {t : Digits} (ht : quoteChar ∉ t) :
    clockedVec k (operand ['c', 'l', 'k'] [digitOf clk]
        ++ (operand ['c', 'i', 'n'] [digitOf cin] ++ operand ['y'] (quoted t)))
      = some (k clk cin t) := by
  simp only [clockedVec, bitArg_operand (name := ['c', 'l', 'k']) rfl, bitArg_operand (name := ['c', 'i', 'n']) rfl,
    vecArg_last ht, Option.bind_some, finish_nil]

/-! ## A line by the number of its operands -/

section
variable {m : Mnemonic} {i : Instr} {n1 v1 n2 v2 n3 v3 : List Char}

theorem assemble_mnemonic {t : List Char} (ht : EndsOperand t) (h : readOperands m t = some i) :
    assemble (m.name ++ t) = some [encode i] := by
  rw [assemble, readLine_mnemonic m ht, h]
  rfl

theorem assemble_no_operand (h : readOperands m [] = some i) : assemble m.name = some [encode i] := by
  simpa only [List.append_nil] using assemble_mnemonic endsOperand_nil h

theorem assemble_one_operand (h : readOperands m (operand n1 v1) = some i) :
    assemble (m.name ++ operand n1 v1) = some [encode i] :=
  assemble_mnemonic (endsOperand_last n1 v1) h

theorem assemble_two_operands (h : readOperands m (operand n1 v1 ++ operand n2 v2) = some i) :
    assemble (m.name ++ operand n1 v1 ++ operand n2 v2) = some [encode i] := by
  rw [List.append_assoc]
  exact assemble_mnemonic (endsOperand_operand n1 v1 _) h

theorem assemble_three_operands (h : readOperands m (operand n1 v1 ++ (operand n2 v2 ++ operand n3 v3)) = some i) :
    assemble (m.name ++ operand n1 v1 ++ operand n2 v2 ++ operand n3 v3) = some [encode i] := by
  rw [List.append_assoc, List.append_assoc]
  exact assemble_mnemonic (endsOperand_operand n1 v1 _) h

end

theorem assemble_pseudo {name t : List Char} {is : List Instr} (hn : (name.all (· != ' ')) = true)
    (hm : Mnemonic.all.find? (fun m => m.name == name) = none) (ht : EndsOperand t)
    (h : readPseudo name t = some is) : assemble (name ++ t) = some (is.map encode) := by
  rw [assemble, readLine_pseudo (List.all_eq_true.1 hn) hm ht, h, Option.map_some]

/-! ## The lines of operations -/

theorem assemble_operationLine {line : List Char} {i : Instr} (h : OperationLine line i) :
    assemble line = some [encode i] := by
  cases h with
  | not a =>
    refine assemble_one_operand (m := .not) ?_
    rw [readOperands, bitArg_last rfl]
    rfl
  | and a b => exact assemble_two_operands (m := .and) (twoBits_operands rfl rfl _ a b)
  | or a b => exact assemble_two_operands (m := .or) (twoBits_operands rfl rfl _ a b)
  | nor a b => exact assemble_two_operands (m := .nor) (twoBits_operands rfl rfl _ a b)
  | nand a b => exact assemble_two_operands (m := .nand) (twoBits_operands rfl rfl _ a b)
  | xor a b => exact assemble_two_operands (m := .xor) (twoBits_operands rfl rfl _ a b)
  | fa a b cin => exact assemble_three_operands (m := .fa) (threeBits_operands rfl rfl rfl _ a b cin)
  | srInit => exact assemble_no_operand (m := .srInit) rfl
  | srStep set rst => exact assemble_two_operands (m := .srStep) (twoBits_operands rfl rfl _ set rst)
  | dffInit => exact assemble_no_operand (m := .dffInit) rfl
  | dffStep clk d => exact assemble_two_operands (m := .dffStep) (twoBits_operands rfl rfl _ clk d)
  | acc1Init => exact assemble_no_operand (m := .acc1Init) rfl
  | acc1Step y clk cin => exact assemble_three_operands (m := .acc1Step) (threeBits_operands rfl rfl rfl _ y clk cin)
  | accnInit hn =>
    refine assemble_one_operand (m := .accnInit) ?_
    rw [readOperands, natArg_last hn]
    rfl
  | accnStep clk cin ht => exact assemble_three_operands (m := .accnStep) (clockedVec_operands _ clk cin ht)
  | acc4Init => exact assemble_no_operand (m := .acc4Init) rfl
  | acc4Step clk cin ht => exact assemble_three_operands (m := .acc4Step) (clockedVec_operands _ clk cin ht)
  | ncoInit hn hf =>
    refine assemble_two_operands (m := .ncoInit) ?_
    rw [readOperands, natArg_operand hn (endsOperand_last _ _), Option.bind_some, ratArg_last rfl hf]
    rfl
  | ncoSetfreq hf =>
    refine assemble_one_operand (m := .ncoSetfreq) ?_
    rw [readOperands, ratArg_last rfl hf]
    rfl
  | ncoAdvance => exact assemble_no_operand (m := .ncoAdvance) rfl

/-! ## The lines of pseudo-instructions -/

section
variable {t : List Char}

theorem readPseudo_accnCycle :
    readPseudo ['A', 'C', 'C', 'N', '.', 'C', 'Y', 'C', 'L', 'E'] t
      = (vecArg t).bind fun y => finish (accnCycle y.1) y.2 := rfl

theorem readPseudo_acc4Cycle :
    readPseudo ['A', 'C', 'C', '4', '.', 'C', 'Y', 'C', 'L', 'E'] t
      = (vecArg t).bind fun y => finish (acc4Cycle y.1) y.2 := rfl

theorem readPseudo_dffCycle :
    readPseudo ['D', 'F', 'F', '.', 'C', 'Y', 'C', 'L', 'E'] t
      = (bitArg ['d'] t).bind fun d => finish (dffCycle d.1) d.2 := rfl

theorem readPseudo_ncoStart :
    readPseudo ['N', 'C', 'O', '.', 'S', 'T', 'A', 'R', 'T'] t
      = (natArg t).bind fun n => (ratArg ['f', 'm', 'c', 'l', 'k'] n.2).bind fun f =>
          (ratArg ['f', 'o', 'u', 't'] f.2).bind fun g => finish (ncoStart n.1 f.1 g.1) g.2 := rfl

end

theorem assemble_pseudoLine {line : List Char} {is : List Instr} (h : PseudoLine line is) :
    assemble line = some (is.map encode) := by
  cases h with
  | accnCycle ht =>
    refine assemble_pseudo (by decide) (by decide) (endsOperand_last _ _) ?_
    rw [readPseudo_accnCycle, vecArg_last ht]
    rfl
  | acc4Cycle ht =>
    refine assemble_pseudo (by decide) (by decide) (endsOperand_last _ _) ?_
    rw [readPseudo_acc4Cycle, vecArg_last ht]
    rfl
  | dffCycle d =>
    refine assemble_pseudo (by decide) (by decide) (endsOperand_last _ _) ?_
    rw [readPseudo_dffCycle, bitArg_last rfl]
    rfl
  | ncoStart hn hf hg =>
    rw [List.append_assoc, List.append_assoc]
    refine assemble_pseudo (by decide) (by decide) (endsOperand_operand _ _ _) ?_
    rw [readPseudo_ncoStart, natArg_operand hn (endsOperand_operand _ _ _), Option.bind_some,
      ratArg_operand rfl hf (endsOperand_last _ _), Option.bind_some, ratArg_last rfl hg]
    rfl

/-- Settles O51: a line is its name before its operands, and each reader takes its own operand off the front. -/
theorem linesAssemble : Obligations.LinesAssemble :=
  ⟨fun _ _ => assemble_operationLine, fun _ _ => assemble_pseudoLine⟩

end Sys2Proof.Machine
end
